-- ==== Sys2Proof/Word.lean ====
section
/-! DEFINITION. The value types of the CORE (spec/00_scope.md R6, R7; spec/10_state.md R20). -/

namespace Sys2Proof

/-- A register, a stack element, an immediate field or a pc value: a 16-bit pattern (R7). -/
abbrev Word := BitVec 16

/-- One byte of the instruction buffer (R6). -/
abbrev Byte := BitVec 8

/-- A register index: the value of a 4-bit field, 0 to 15 (R20). -/
abbrev RegIdx := Fin 16

/-- An instruction slot read as the numeral `W = {B0, B1, B2, B3}`, B0 in bits 31:24 (R25, R70). -/
abbrev SlotWord := BitVec 32

/-- The width of a statistics counter (R32). -/
abbrev Counter := BitVec 64

end Sys2Proof
end

