-- ==== Sys2Proof/Config.lean ====
section
/-! DEFINITION. What is fixed for one implementation of the CORE (spec/00_scope.md R5). The spec leaves no value
free (spec/93_implementation_defined.md: "No behaviour of the CORE is left as `any value` or `stuck`"), so no
constant here is opaque. STACK_CAPACITY, the one OPEN parameter (D24), is a field of State, which every statement
quantifies over; the default below is what `State.reset` gives it (log entry 1). -/

namespace Sys2Proof.Config

/-- MAX_PROGRAM_BYTES: 65532 bytes, 16383 instructions (R5, D16). -/
def maxProgramBytes : Nat := 65532

/-- ILEN: one instruction slot is exactly 4 bytes (R5, R81). -/
def slotBytes : Nat := 4

/-- The default of STACK_CAPACITY: unbounded, written `none` (R5, R27). -/
def defaultStackCapacity : Option Nat := none

end Sys2Proof.Config
end

