-- ==== Sys2Proof/Syntax.lean ====
section
/-! DEFINITION. The instructions of the CORE as syntax: one constructor of `Instr` per row of
spec/opcode_table.json, with the operand forms of spec/30_encoding.md R71 and R73. -/

namespace Sys2Proof

/-- A source operand of the decoded form (R73, R78): a register, the 16-bit immediate field (an immediate literal or
a resolved label offset), or the `pop` pseudo-operand. -/
inductive Operand where
  | reg (i : RegIdx)
  | imm (v : Word)
  | pop
deriving DecidableEq, Repr

/-- The fifteen operations (R75). -/
inductive Op where
  | mov | add | sub | lt | gt | lteq | eq | jmpt | jmpf | call | ret | push | pop | nop | stop
deriving DecidableEq, Repr

/-- The instructions, with the operand names of R71 and R135. -/
inductive Instr where
  /-- `mov rd s` (R200) -/
  | mov (rd : RegIdx) (s : Operand)
  /-- `add rd a b` (R210) -/
  | add (rd : RegIdx) (a b : Operand)
  /-- `sub rd a b` (R211) -/
  | sub (rd : RegIdx) (a b : Operand)
  /-- `lt rd a b` (R220) -/
  | lt (rd : RegIdx) (a b : Operand)
  /-- `gt rd a b` (R221) -/
  | gt (rd : RegIdx) (a b : Operand)
  /-- `lteq rd a b` (R222) -/
  | lteq (rd : RegIdx) (a b : Operand)
  /-- `eq a b` (R226) -/
  | eq (a b : Operand)
  /-- `jmpt c t` (R241) -/
  | jmpt (c t : Operand)
  /-- `jmpf c t` (R242) -/
  | jmpf (c t : Operand)
  /-- `call t` (R244) -/
  | call (t : Operand)
  /-- `ret` (R245) -/
  | ret
  /-- `push v` (R260) -/
  | push (v : Operand)
  /-- `pop` (R261) -/
  | pop
  /-- `nop` (R270) -/
  | nop
  /-- `stop` (R271) -/
  | stop
deriving DecidableEq, Repr

/-- The kind of a source operand, a 2-bit code of the opcode byte (R73). -/
inductive Kind where
  | none | reg | imm | pop
deriving DecidableEq, Repr

/-- The four bytes of one instruction slot, in offset order (R70). -/
structure Slot where
  b0 : Byte
  b1 : Byte
  b2 : Byte
  b3 : Byte
deriving DecidableEq, Repr

end Sys2Proof
end

