-- ==== Sys2Proof/WellFormed.lean ====
section
/-! DEFINITION. Which instructions fit one slot (spec/30_encoding.md R74, R76 and R77 (c), (d)): at most one IMM source and
at most two register operands, the destination counted. The number of sources (R77 (b)) holds by the shape of
`Instr`. -/

namespace Sys2Proof

def Operand.isReg : Operand → Bool
  | .reg _ => true
  | .imm _ => false
  | .pop => false

def Operand.isImm : Operand → Bool
  | .reg _ => false
  | .imm _ => true
  | .pop => false

def Operand.isPop : Operand → Bool
  | .reg _ => false
  | .imm _ => false
  | .pop => true

/-- R77 (c): the slot has one immediate field, so not both sources are IMM. -/
def oneImmediate (a b : Operand) : Bool := !(a.isImm && b.isImm)

/-- R77 (d) for an operation with a destination: a second and a third register do not both fit. -/
def twoRegisters (a b : Operand) : Bool := !(a.isReg && b.isReg)

/-- The instruction fits one slot (R77). -/
def Instr.wf : Instr → Bool
  | .mov _ _ => true
  | .add _ a b => oneImmediate a b && twoRegisters a b
  | .sub _ a b => oneImmediate a b && twoRegisters a b
  | .lt _ a b => oneImmediate a b && twoRegisters a b
  | .gt _ a b => oneImmediate a b && twoRegisters a b
  | .lteq _ a b => oneImmediate a b && twoRegisters a b
  | .eq a b => oneImmediate a b
  | .jmpt c t => oneImmediate c t
  | .jmpf c t => oneImmediate c t
  | .call _ => true
  | .ret => true
  | .push _ => true
  | .pop => true
  | .nop => true
  | .stop => true

end Sys2Proof
end

