-- ==== Sys2Proof/Decode.lean ====
section
/-! DEFINITION. The binary format (spec/30_encoding.md): the decoder, total on any four bytes and rejecting by name, and
after it the encoder, both written from the same operation numbers, kind codes and fields. -/

namespace Sys2Proof

/-! ### Operations (R72, R75) -/

/-- The operation's number, in the order of R75. -/
def Op.index : Op → Fin 15
  | .mov => 0 | .add => 1 | .sub => 2 | .lt => 3 | .gt => 4 | .lteq => 5 | .eq => 6 | .jmpt => 7
  | .jmpf => 8 | .call => 9 | .ret => 10 | .push => 11 | .pop => 12 | .nop => 13 | .stop => 14

/-- The OP field of the operation (R75). -/
def Op.code (o : Op) : BitVec 4 := BitVec.ofNat 4 o.index.val

/-- The fifteen operations in the order of their numbers. -/
def Op.all : List Op :=
  [.mov, .add, .sub, .lt, .gt, .lteq, .eq, .jmpt, .jmpf, .call, .ret, .push, .pop, .nop, .stop]

/-- The operation an OP field names; `none` for the reserved 0xF (R75, R80). -/
def Op.ofCode (c : BitVec 4) : Option Op := Op.all.find? fun o => o.code == c

/-- `hasDst(OP)` (R72). -/
def Op.hasDst : Op → Bool
  | .mov | .add | .sub | .lt | .gt | .lteq => true
  | .eq | .jmpt | .jmpf | .call | .ret | .push | .pop | .nop | .stop => false

/-- `nSrc(OP)` (R72). -/
def Op.nSrc : Op → Nat
  | .mov | .call | .push => 1
  | .add | .sub | .lt | .gt | .lteq | .eq | .jmpt | .jmpf => 2
  | .ret | .pop | .nop | .stop => 0

/-! ### The parts of an instruction (R71) -/

/-- The instruction's operation. -/
def Instr.op : Instr → Op
  | .mov _ _ => .mov
  | .add _ _ _ => .add
  | .sub _ _ _ => .sub
  | .lt _ _ _ => .lt
  | .gt _ _ _ => .gt
  | .lteq _ _ _ => .lteq
  | .eq _ _ => .eq
  | .jmpt _ _ => .jmpt
  | .jmpf _ _ => .jmpf
  | .call _ => .call
  | .ret => .ret
  | .push _ => .push
  | .pop => .pop
  | .nop => .nop
  | .stop => .stop

/-- The destination register, if the operation has one (R71). -/
def Instr.dst : Instr → Option RegIdx
  | .mov rd _ => some rd
  | .add rd _ _ => some rd
  | .sub rd _ _ => some rd
  | .lt rd _ _ => some rd
  | .gt rd _ _ => some rd
  | .lteq rd _ _ => some rd
  | .eq _ _ => none
  | .jmpt _ _ => none
  | .jmpf _ _ => none
  | .call _ => none
  | .ret => none
  | .push _ => none
  | .pop => none
  | .nop => none
  | .stop => none

/-- The source operands A and B, in that order (R71). -/
def Instr.sources : Instr → Option Operand × Option Operand
  | .mov _ s => (some s, none)
  | .add _ a b => (some a, some b)
  | .sub _ a b => (some a, some b)
  | .lt _ a b => (some a, some b)
  | .gt _ a b => (some a, some b)
  | .lteq _ a b => (some a, some b)
  | .eq a b => (some a, some b)
  | .jmpt c t => (some c, some t)
  | .jmpf c t => (some c, some t)
  | .call t => (some t, none)
  | .ret => (none, none)
  | .push v => (some v, none)
  | .pop => (none, none)
  | .nop => (none, none)
  | .stop => (none, none)

/-- The instruction of an operation with no operand, if the parts given are none. -/
def Instr.build0 (i : Instr) (dst : Option RegIdx) (a b : Option Operand) : Option Instr :=
  match dst, a, b with
  | none, none, none => some i
  | _, _, _ => none

/-- The instruction of an operation with one source and no destination. -/
def Instr.build1 (f : Operand → Instr) (dst : Option RegIdx) (a b : Option Operand) : Option Instr :=
  match dst, a, b with
  | none, some x, none => some (f x)
  | _, _, _ => none

/-- The instruction of an operation with two sources and no destination. -/
def Instr.build2 (f : Operand → Operand → Instr) (dst : Option RegIdx) (a b : Option Operand) : Option Instr :=
  match dst, a, b with
  | none, some x, some y => some (f x y)
  | _, _, _ => none

/-- The instruction of an operation with a destination and two sources. -/
def Instr.build3 (f : RegIdx → Operand → Operand → Instr) (dst : Option RegIdx) (a b : Option Operand) : Option Instr :=
  match dst, a, b with
  | some d, some x, some y => some (f d x y)
  | _, _, _ => none

/-- The instruction with the given operation and parts; `none` if the parts do not have the operation's shape
(R71). The decoder and the assembler both build instructions here. -/
def Instr.build (op : Op) (dst : Option RegIdx) (a b : Option Operand) : Option Instr :=
  match op with
  | .mov => match dst, a, b with
    | some d, some x, none => some (.mov d x)
    | _, _, _ => none
  | .add => Instr.build3 .add dst a b
  | .sub => Instr.build3 .sub dst a b
  | .lt => Instr.build3 .lt dst a b
  | .gt => Instr.build3 .gt dst a b
  | .lteq => Instr.build3 .lteq dst a b
  | .eq => Instr.build2 .eq dst a b
  | .jmpt => Instr.build2 .jmpt dst a b
  | .jmpf => Instr.build2 .jmpf dst a b
  | .call => Instr.build1 .call dst a b
  | .ret => Instr.build0 .ret dst a b
  | .push => Instr.build1 .push dst a b
  | .pop => Instr.build0 .pop dst a b
  | .nop => Instr.build0 .nop dst a b
  | .stop => Instr.build0 .stop dst a b

/-! ### Operand kinds (R73) -/

/-- The 2-bit code of a kind (R73). -/
def Kind.code : Kind → BitVec 2
  | .none => 0b00#2
  | .reg => 0b01#2
  | .imm => 0b10#2
  | .pop => 0b11#2

/-- The kind a 2-bit code names (R73). -/
def Kind.ofCode (c : BitVec 2) : Kind :=
  match c.toNat with
  | 0 => .none
  | 1 => .reg
  | 2 => .imm
  | _ => .pop

/-- The kind of a source operand that may be absent (R73). -/
def Kind.ofOperand : Option Operand → Kind
  | .none => .none
  | some (.reg _) => .reg
  | some (.imm _) => .imm
  | some .pop => .pop

/-! ### The fields of a slot (R70, R76) -/

/-- B0[3:0], the operation. -/
def Slot.opField (s : Slot) : BitVec 4 := s.b0.extractLsb' 0 4

/-- B0[7:6], the kind of source A. -/
def Slot.kindA (s : Slot) : Kind := Kind.ofCode (s.b0.extractLsb' 6 2)

/-- B0[5:4], the kind of source B. -/
def Slot.kindB (s : Slot) : Kind := Kind.ofCode (s.b0.extractLsb' 4 2)

/-- A 4-bit index field as a register index: always 0 to 15 (R78). -/
def regOfField (f : BitVec 4) : RegIdx := f.toFin

/-- A register index as its 4-bit field. -/
def fieldOfReg (r : RegIdx) : BitVec 4 := BitVec.ofFin r

/-- B1[7:4], the first register index. -/
def Slot.rx (s : Slot) : RegIdx := regOfField (s.b1.extractLsb' 4 4)

/-- B1[3:0], the second register index. -/
def Slot.ry (s : Slot) : RegIdx := regOfField (s.b1.extractLsb' 0 4)

/-- The immediate field, little-endian: `IMM = (B3, B2)` (R52, R76). -/
def Slot.immField (s : Slot) : Word := s.b3 ++ s.b2

/-- The slot as the numeral `W`, B0 in bits 31:24 and B3 in bits 7:0 (R25, R70). -/
def Slot.word (s : Slot) : SlotWord := s.b0 ++ s.b1 ++ s.b2 ++ s.b3

/-- The slot whose numeral is `w` (R70). -/
def Slot.ofWord (w : SlotWord) : Slot :=
  { b0 := w.extractLsb' 24 8, b1 := w.extractLsb' 16 8, b2 := w.extractLsb' 8 8, b3 := w.extractLsb' 0 8 }

/-- The slot's bytes in offset order (R70). -/
def Slot.bytes (s : Slot) : List Byte := [s.b0, s.b1, s.b2, s.b3]

/-! ### Legality (R77) -/

/-- Why a slot is INVALID (R77, R80). Every reason raises the same InvalidInstructionError (R164). -/
inductive DecodeError where
  /-- R77 (a): OP is 0xF, which is reserved. -/
  | reservedOperation
  /-- R77 (b): the kinds do not give the operation's number of sources. -/
  | wrongSources
  /-- R77 (c): both sources are IMM. -/
  | twoImmediates
  /-- R77 (d): three register operands. -/
  | threeRegisters
deriving DecidableEq, Repr

/-- R77 (b): the kinds present the operation's number of sources, A before B. -/
def sourcesMatch (n : Nat) (ka kb : Kind) : Bool :=
  match n with
  | 0 => ka == .none && kb == .none
  | 1 => ka != .none && kb == .none
  | _ => ka != .none && kb != .none

/-- R77 (d): the number of register operands. -/
def registerCount (op : Op) (ka kb : Kind) : Nat :=
  op.hasDst.toNat + (ka == .reg).toNat + (kb == .reg).toNat

/-- What makes the opcode byte illegal, `none` if it is legal (R77 (b) to (d)). -/
def encodingProblem (op : Op) (ka kb : Kind) : Option DecodeError :=
  if sourcesMatch op.nSrc ka kb = false then some .wrongSources
  else if ka = .imm ∧ kb = .imm then some .twoImmediates
  else if 2 < registerCount op ka kb then some .threeRegisters
  else none

/-! ### The decoder (R78) -/

/-- R78's `Operand(K)`: the operand of a kind, taking the next register index where the kind is REG, and the indices
left over. -/
def takeOperand (k : Kind) (imm : Word) (regs : List RegIdx) : Option Operand × List RegIdx :=
  match k with
  | .none => (none, regs)
  | .imm => (some (.imm imm), regs)
  | .pop => (some .pop, regs)
  | .reg => match regs with
    | [] => (none, [])
    | r :: rest => (some (.reg r), rest)

/-- R78's destination: the first register index where the operation has one, and the indices left over. -/
def takeDst (hasDst : Bool) (regs : List RegIdx) : Option RegIdx × List RegIdx :=
  match hasDst, regs with
  | true, r :: rest => (some r, rest)
  | _, _ => (none, regs)

/-- The parts of a slot whose operation is `op`: destination, A, B, taken in that order (R74, R78). -/
def Slot.parts (s : Slot) (op : Op) : Option RegIdx × Option Operand × Option Operand :=
  let d := takeDst op.hasDst [s.rx, s.ry]
  let a := takeOperand s.kindA s.immField d.2
  let b := takeOperand s.kindB s.immField a.2
  (d.1, a.1, b.1)

/-- `Decode(B0, B1, B2, B3)` (R78): total on any four bytes. The last arm is never reached: a legal opcode byte has
its operation's shape (`decode_legal` in Laws/Decode.lean). -/
def decode (s : Slot) : Except DecodeError Instr :=
  match Op.ofCode s.opField with
  | none => .error .reservedOperation
  | some op =>
    match encodingProblem op s.kindA s.kindB with
    | some e => .error e
    | none =>
      match Instr.build op (s.parts op).1 (s.parts op).2.1 (s.parts op).2.2 with
      | some i => .ok i
      | none => .error .wrongSources

/-! ### The encoder (R82) -/

/-- The register an operand names, if it names one (R74). -/
def Operand.registers : Option Operand → List RegIdx
  | some (.reg i) => [i]
  | some (.imm _) => []
  | some .pop => []
  | none => []

/-- The immediate an operand carries, if it carries one (R76). -/
def Operand.immediate : Option Operand → Option Word
  | some (.imm v) => some v
  | some (.reg _) => none
  | some .pop => none
  | none => none

/-- R74's list L: destination, then A, then B, those that are registers. -/
def Instr.registers (i : Instr) : List RegIdx :=
  i.dst.toList ++ Operand.registers i.sources.1 ++ Operand.registers i.sources.2

/-- The value of the immediate field: the one IMM source's, or 0 (R79, R82). -/
def Instr.immediate (i : Instr) : Word :=
  ((Operand.immediate i.sources.1).or (Operand.immediate i.sources.2)).getD 0#16

/-- `Encode(op, dst, A, B)` (R82): unused fields are written as zero (R79). -/
def encode (i : Instr) : Slot :=
  { b0 := (Kind.ofOperand i.sources.1).code ++ (Kind.ofOperand i.sources.2).code ++ i.op.code
    b1 := fieldOfReg (i.registers[0]?.getD 0) ++ fieldOfReg (i.registers[1]?.getD 0)
    b2 := i.immediate.extractLsb' 0 8
    b3 := i.immediate.extractLsb' 8 8 }

/-! ### The host's table word -/

/-- The slot of a table word: the low `nbits` bits of `w`, numbered as spec/opcode_table.json numbers them, that is as
the numeral `W` of R70 with B0 in bits 31:24. Bits above `nbits` are 0. -/
def slotOfTableWord (nbits w : Nat) : Slot := Slot.ofWord (BitVec.ofNat 32 (w % 2 ^ nbits))

/-- The instruction the decoder reads from a table word; `none` where it refuses the slot. -/
def decodeTableWord (nbits w : Nat) : Option Instr :=
  match decode (slotOfTableWord nbits w) with
  | .ok i => some i
  | .error _ => none

end Sys2Proof
end

