-- ==== Sys2Proof/Machine/State.lean ====
section
/-! DEFINITION. The state of the CORE (spec/10_state.md), its value at reset (R40), and the ways a step can stop. -/

namespace Sys2Proof.Machine

/-- The execution errors (R301). They are no faults of the model: a step that raises one answers a next state, with
STATUS as R304 says. -/
inductive ExecutionError where
  | stackUnderflow
  | invalidRegister
  | outOfBoundsJump
  | invalidInstruction
  | stackOverflow
deriving DecidableEq, Repr

/-- STATUS (R30, R160): the VM runs, or it has halted with the error that halted it, `none` for a halt without error.
That ERR is 0 whenever RUN = 1 holds by the type. Ops.lean gives RUN, ERR and the 16-bit word. -/
inductive Status where
  | running
  | halted (err : Option ExecutionError)
deriving DecidableEq, Repr

/-- MODE (R31): DEBUG_MODE and STATS_MODE. Ops.lean gives the 16-bit word. -/
structure Mode where
  debug : Bool
  stats : Bool
deriving DecidableEq, Repr

/-- One trace record (R322): the offset of the instruction, its decoded form, and the sixteen registers after the step
commits. -/
structure TraceRecord where
  pc : Word
  instr : Instr
  regs : Vector Word 16
deriving DecidableEq, Repr

/-- The instruction buffer's bytes by offset (R50): strictly rising offsets, one entry for every byte of the buffer. An
offset that is not listed lies outside the buffer and reads as no value (R55). -/
abbrev Memory := List Host.Cell

/-- Everything the spec gives the machine (spec/10_state.md). -/
structure State where
  /-- `x[0]` to `x[15]`, the register file (R20). -/
  regs : Vector Word 16
  /-- The program counter, a byte offset into the buffer (R23). -/
  pc : Word
  /-- IR, the slot most recently fetched, B0 in bits 31:24 (R25). -/
  ir : SlotWord
  /-- S, the operand stack, TOP FIRST: the head is the spec's `s_(n-1)` (R8, R26; log entry 5). -/
  stack : List Word
  /-- STACK_CAPACITY, `none` for unbounded (R27): a parameter that no step and no reset writes (log entry 1). -/
  stackCapacity : Option Nat
  /-- CMPF, the comparison flag (R28). -/
  cmpf : Bool
  /-- IMEM, the instruction buffer (R50). -/
  mem : Memory
  /-- LEN, the buffer's length in bytes (R29). -/
  len : Nat
  /-- STATUS (R30). -/
  status : Status
  /-- MODE (R31). -/
  mode : Mode
  /-- INSTRET (R32). -/
  instret : Counter
  /-- OPCOUNT, indexed by `Op.index` (R32). -/
  opcount : Vector Counter 15
  /-- The trace records emitted since reset, oldest first (R321, R322): the output the host reads (log entry 4). -/
  trace : List TraceRecord
deriving DecidableEq, Repr

/-- Why a step answers no next state. -/
inductive Fault where
  /-- Raised by `step` on a Halted machine: Halted "is terminal and has no step" (R160, R310). Safe: it is the stuck
  state the spec describes (log entry 8). -/
  | halted
  /-- Raised by `step` where a byte of the slot at pc lies outside the buffer. No state that meets `State.Inv` does so
  (R163). Safe: the model stops where the spec gives no byte (log entry 7). -/
  | fetchOutsideBuffer
deriving DecidableEq, Repr

/-- What the model refuses. -/
inductive Refusal where
  /-- Raised by `exec` for an instruction with no meaning yet; no arm does. Safe. -/
  | notModelled (mnemonic : String)
  /-- Raised by `hostReset` for a buffer whose length is not a multiple of 4 or is above 65532: "refused at reset"
  (R341). Safe: the spec refuses it. -/
  | bufferRefused (length : Nat)
deriving DecidableEq, Repr

/-- The machine after a reset with the empty buffer and every optional host input at its default (R40, R340): a program
comes from the host's own reset with a buffer, `hostReset` in Ports.lean (log entry 2). -/
def State.reset : State :=
  { regs := Vector.replicate 16 0#16
    pc := 0#16
    ir := 0#32
    stack := []
    stackCapacity := Config.defaultStackCapacity
    cmpf := false
    mem := []
    len := 0
    status := .running
    mode := { debug := false, stats := false }
    instret := 0#64
    opcount := Vector.replicate 15 0#64
    trace := [] }

end Sys2Proof.Machine
end

