-- ==== Sys2Proof/Machine/Ops.lean ====
section
/-! DEFINITION. The named operations over the state: reading a value as a number, the register file, the instruction
buffer and fetch, the STATUS and MODE words, taking an execution error, and the commit of a completed step. -/

namespace Sys2Proof.Machine

/-! ### Values (R7) -/

/-- `s16(v)`: the pattern read as signed. -/
def s16 (v : Word) : Int := if v.toNat < 32768 then (v.toNat : Int) else (v.toNat : Int) - 65536

/-- `u16(v)`: the pattern read as unsigned. -/
abbrev u16 (v : Word) : Nat := v.toNat

/-- `w16(n)`: the pattern `n mod 65536`. -/
def w16 (n : Int) : Word := BitVec.ofInt 16 n

/-! ### The register file (R20, R22) -/

/-- `x[i]`. No register is hard-wired (R20). -/
def State.readReg (s : State) (i : RegIdx) : Word := s.regs[i]

/-- The register file after `x[i] <- v`. -/
def setReg (regs : Vector Word 16) (i : RegIdx) (v : Word) : Vector Word 16 := regs.set i v

/-- r15, the link register (R21). -/
def linkReg : RegIdx := 15

/-! ### The instruction buffer (R50 to R55) -/

/-- The byte at an offset; `none` where the buffer has none (R55). -/
def Memory.read (m : Memory) (a : Nat) : Option Byte :=
  match m with
  | [] => none
  | (b, v) :: rest => if a = b then some v else Memory.read rest a

/-- The buffer with `v` at offset `a`: only the host writes it (R51). -/
def Memory.write (m : Memory) (a : Nat) (v : Byte) : Memory :=
  match m with
  | [] => [(a, v)]
  | (b, w) :: rest =>
    if a < b then (a, v) :: (b, w) :: rest
    else if a = b then (a, v) :: rest
    else (b, w) :: Memory.write rest a v

/-- Every offset of `m` is at least `lo`, and they rise strictly. -/
def Memory.risesFrom (lo : Nat) (m : Memory) : Bool :=
  match m with
  | [] => true
  | (a, _) :: rest => decide (lo ≤ a) && Memory.risesFrom (a + 1) rest

/-- The canonical form: offsets rise strictly. An unlisted offset reads as no value, so no entry can equal what an
unlisted offset reads as. -/
def Memory.wf (m : Memory) : Bool := Memory.risesFrom 0 m

/-- Bytes placed at `base`, `base + 1`, and so on. -/
def Memory.ofBytes (base : Nat) (bytes : List Byte) : Memory :=
  match bytes with
  | [] => []
  | v :: rest => (base, v) :: Memory.ofBytes (base + 1) rest

/-- Writes bytes at `base`, `base + 1`, and so on. -/
def Memory.writeBytes (m : Memory) (base : Nat) (bytes : List Byte) : Memory :=
  match bytes with
  | [] => m
  | v :: rest => Memory.writeBytes (Memory.write m base v) (base + 1) rest

/-- `Fetch(a)`: the four bytes at `a`, `a+1`, `a+2`, `a+3` (R8, R52). -/
def fetchSlot (m : Memory) (a : Nat) : Option Slot :=
  match Memory.read m a, Memory.read m (a + 1), Memory.read m (a + 2), Memory.read m (a + 3) with
  | some b0, some b1, some b2, some b3 => some { b0 := b0, b1 := b1, b2 := b2, b3 := b3 }
  | _, _, _, _ => none

/-- pc is at or past the end of the buffer (R162). -/
def State.atEnd (s : State) : Bool := decide (s.len ≤ u16 s.pc)

/-- IR is written by the fetch of a slot (R163). -/
def State.withIr (s : State) (sl : Slot) : State := { s with ir := sl.word }

/-! ### The STATUS and MODE words (R30, R31) -/

/-- The ERR code of an error (R301). -/
def ExecutionError.code : ExecutionError → BitVec 3
  | .stackUnderflow => 1#3
  | .invalidRegister => 2#3
  | .outOfBoundsJump => 3#3
  | .invalidInstruction => 4#3
  | .stackOverflow => 5#3

/-- STATUS.RUN. -/
def Status.run : Status → Bool
  | .running => true
  | .halted _ => false

/-- STATUS.ERR, 0 for none. -/
def Status.errCode : Status → BitVec 3
  | .running => 0#3
  | .halted none => 0#3
  | .halted (some e) => e.code

/-- The STATUS register: RUN in bit 0, ERR in bits 3:1, bits 15:4 read as 0 (R30). -/
def Status.word (st : Status) : BitVec 16 := 0#12 ++ st.errCode ++ BitVec.ofBool st.run

/-- The MODE register: DEBUG_MODE in bit 0, STATS_MODE in bit 1, bits 15:2 read as 0 (R31; log entry 3). -/
def Mode.word (m : Mode) : BitVec 16 := 0#14 ++ BitVec.ofBool m.stats ++ BitVec.ofBool m.debug

/-! ### Taking an execution error, and halting without one -/

/-- Error entry (R304): RUN <- 0 and ERR <- the error's code; registers, stack, CMPF, pc and counters keep their values
and no record is emitted. There is no return from it (R305). -/
def raiseError (e : ExecutionError) (s : State) : State := { s with status := .halted (some e) }

/-- The halt at the end of the buffer (R162): RUN <- 0, ERR <- 0, and nothing else changes. -/
def haltAtEnd (s : State) : State := { s with status := .halted none }

/-! ### The commit of a completed step (R173, R320, R322) -/

/-- The writes of one completed instruction: the stack after its pops and pushes, at most one register, CMPF if `eq`, the
next pc, and for `stop` the Halted state (R173). -/
structure Writes where
  stack : List Word
  nextPc : Word
  reg : Option (RegIdx × Word) := none
  cmpf : Option Bool := none
  halt : Bool := false
deriving DecidableEq, Repr

/-- The default next pc (R165). -/
def State.pcPlus4 (s : State) : Word := s.pc + 4#16

/-- The register file after the one register write, if there is one (R22). -/
def applyReg (regs : Vector Word 16) (w : Option (RegIdx × Word)) : Vector Word 16 :=
  match w with
  | none => regs
  | some (i, v) => setReg regs i v

/-- OPCOUNT after one more instruction of operation `op`, modulo 2^64 (R320). -/
def bumpOp (counts : Vector Counter 15) (op : Op) : Vector Counter 15 :=
  counts.set op.index (counts[op.index] + 1#64)

/-- OPCOUNT[op] (R32). -/
def State.opCount (s : State) (op : Op) : Counter := s.opcount[op.index]

/-- The records emitted after one more completed step, of which there is one when DEBUG_MODE = 1 (R322). -/
def emit (debug : Bool) (tr : List TraceRecord) (r : TraceRecord) : List TraceRecord :=
  match debug with
  | true => tr ++ [r]
  | false => tr

/-- A step that completes commits all its writes at once (R173), counts the instruction (R320) and emits its trace record
(R322). -/
def complete (i : Instr) (w : Writes) (s : State) : State :=
  { s with
    regs := applyReg s.regs w.reg
    pc := w.nextPc
    stack := w.stack
    cmpf := w.cmpf.getD s.cmpf
    status := match w.halt with
      | true => .halted none
      | false => s.status
    instret := s.instret + 1#64
    opcount := bumpOp s.opcount i.op
    trace := emit s.mode.debug s.trace { pc := s.pc, instr := i, regs := applyReg s.regs w.reg } }

/-! ### Transfers (R240) -/

/-- A valid target: `u16(t) < LEN` and `u16(t) mod 4 = 0` (R240). -/
def validTarget (len : Nat) (t : Word) : Bool := decide (u16 t < len) && decide (u16 t % 4 = 0)

/-- A transfer to `t`: OutOfBoundsJumpError if `t` is not valid, and then nothing is committed; else the writes with
`t` as the next pc (R240). -/
def transferTo (i : Instr) (t : Word) (w : Writes) (s : State) : Host.Outcome State Fault Refusal :=
  match validTarget s.len t with
  | true => .next (complete i { w with nextPc := t } s)
  | false => .next (raiseError .outOfBoundsJump s)

end Sys2Proof.Machine
end

