-- ==== Sys2Proof/Machine/Flags.lean ====
section
/-! DEFINITION. The arithmetic and comparison results (spec/43_arithmetic.md, spec/44_compare.md). The one flag of the CORE is
CMPF, written by `eq` alone (R28); there is no carry and no overflow flag (R210, R212). -/

namespace Sys2Proof.Machine

/-- The wrapped sum (R210). -/
def addResult (a b : Word) : Word := w16 (s16 a + s16 b)

/-- The wrapped difference A minus B (R211). -/
def subResult (a b : Word) : Word := w16 (s16 a - s16 b)

/-- 1 if the relation holds, else 0 (R223). -/
def boolWord (p : Bool) : Word :=
  match p with
  | true => 0x0001#16
  | false => 0x0000#16

/-- `lt` (R220): signed. -/
def ltResult (a b : Word) : Word := boolWord (decide (s16 a < s16 b))

/-- `gt` (R221): signed. -/
def gtResult (a b : Word) : Word := boolWord (decide (s16 a > s16 b))

/-- `lteq` (R222): signed. -/
def lteqResult (a b : Word) : Word := boolWord (decide (s16 a ≤ s16 b))

/-- The CMPF that `eq` writes: equal 16-bit patterns (R226). -/
def eqFlag (a b : Word) : Bool := decide (a = b)

end Sys2Proof.Machine
end

