-- ==== Sys2Proof/Machine/Operands.lean ====
section
/-! DEFINITION. Operand evaluation, shared by every instruction (spec/41_fetch_decode_execute.md R170 to R172): every source
is evaluated, A first, whether or not its value is used; where the stack holds fewer elements than there are Pop
sources, StackUnderflowError is raised and nothing is removed. -/

namespace Sys2Proof.Machine

/-- `Value(d)` (R170): the operand's value and the stack left; `none` where a Pop meets the empty stack. -/
def operandValue (o : Operand) (regs : Vector Word 16) (stack : List Word) : Option (Word × List Word) :=
  match o with
  | .reg i => some (regs[i], stack)
  | .imm v => some (v, stack)
  | .pop => match stack with
    | [] => none
    | top :: rest => some (top, rest)

/-- `npop` of R166: the number of Pop sources. -/
def popCount (ops : List Operand) : Nat := ops.countP Operand.isPop

/-- One source: its value and the stack left. -/
def evalSource (a : Operand) (s : State) : Option (Word × List Word) := operandValue a s.regs s.stack

/-- Two sources, A first, then B on the stack A left (R171): both values and the stack left. -/
def evalSources (a b : Operand) (s : State) : Option (Word × Word × List Word) :=
  match operandValue a s.regs s.stack with
  | none => none
  | some (va, st) => match operandValue b s.regs st with
    | none => none
    | some (vb, st') => some (va, vb, st')

/-- Evaluates one source and goes on with its value and the stack left, or raises StackUnderflowError (R171). -/
def withSource (a : Operand) (s : State) (k : Word → List Word → Host.Outcome State Fault Refusal) :
    Host.Outcome State Fault Refusal :=
  match evalSource a s with
  | some (va, st) => k va st
  | none => .next (raiseError .stackUnderflow s)

/-- Evaluates two sources and goes on with their values and the stack left, or raises StackUnderflowError (R171). -/
def withSources (a b : Operand) (s : State) (k : Word → Word → List Word → Host.Outcome State Fault Refusal) :
    Host.Outcome State Fault Refusal :=
  match evalSources a b s with
  | some (va, vb, st) => k va vb st
  | none => .next (raiseError .stackUnderflow s)

/-- The shape of `add`, `sub`, `lt`, `gt` and `lteq`: the destination gets a value computed from the two sources, and pc
advances. -/
def computeToReg (i : Instr) (rd : RegIdx) (a b : Operand) (f : Word → Word → Word) (s : State) :
    Host.Outcome State Fault Refusal :=
  withSources a b s fun va vb st =>
    .next (complete i { stack := st, reg := some (rd, f va vb), nextPc := s.pcPlus4 } s)

end Sys2Proof.Machine
end

