-- ==== Sys2Proof/Machine/Arithmetic.lean ====
section
/-! DEFINITION. The arithmetic instructions (spec/43_arithmetic.md). -/

namespace Sys2Proof.Machine

/-- `add rd a b` (R210). -/
def execAdd (rd : RegIdx) (a b : Operand) (s : State) : Host.Outcome State Fault Refusal :=
  computeToReg (.add rd a b) rd a b addResult s

/-- `sub rd a b` (R211). -/
def execSub (rd : RegIdx) (a b : Operand) (s : State) : Host.Outcome State Fault Refusal :=
  computeToReg (.sub rd a b) rd a b subResult s

end Sys2Proof.Machine
end

