-- ==== Sys2Proof/Machine/Compare.lean ====
section
/-! DEFINITION. The comparison instructions (spec/44_compare.md). -/

namespace Sys2Proof.Machine

/-- `lt rd a b` (R220). -/
def execLt (rd : RegIdx) (a b : Operand) (s : State) : Host.Outcome State Fault Refusal :=
  computeToReg (.lt rd a b) rd a b ltResult s

/-- `gt rd a b` (R221). -/
def execGt (rd : RegIdx) (a b : Operand) (s : State) : Host.Outcome State Fault Refusal :=
  computeToReg (.gt rd a b) rd a b gtResult s

/-- `lteq rd a b` (R222). -/
def execLteq (rd : RegIdx) (a b : Operand) (s : State) : Host.Outcome State Fault Refusal :=
  computeToReg (.lteq rd a b) rd a b lteqResult s

/-- `eq a b` (R226): CMPF is written and no register is. -/
def execEq (a b : Operand) (s : State) : Host.Outcome State Fault Refusal :=
  withSources a b s fun va vb st =>
    .next (complete (.eq a b) { stack := st, cmpf := some (eqFlag va vb), nextPc := s.pcPlus4 } s)

end Sys2Proof.Machine
end

