-- ==== Sys2Proof/Machine/Control.lean ====
section
/-! DEFINITION. The control transfers (spec/45_control.md). -/

namespace Sys2Proof.Machine

/-- The shape of the two conditional jumps: both sources are evaluated; the target is checked only where the jump is taken
(R172, R241, R242). -/
def jumpIf (i : Instr) (taken : Bool) (target : Word) (stack : List Word) (s : State) :
    Host.Outcome State Fault Refusal :=
  match taken with
  | true => transferTo i target { stack := stack, nextPc := target } s
  | false => .next (complete i { stack := stack, nextPc := s.pcPlus4 } s)

/-- `jmpt c t` (R241). -/
def execJmpt (c t : Operand) (s : State) : Host.Outcome State Fault Refusal :=
  withSources c t s fun vc vt st => jumpIf (.jmpt c t) (decide (vc ≠ 0#16)) vt st s

/-- `jmpf c t` (R242). -/
def execJmpf (c t : Operand) (s : State) : Host.Outcome State Fault Refusal :=
  withSources c t s fun vc vt st => jumpIf (.jmpf c t) (decide (vc = 0#16)) vt st s

/-- `call t` (R244): the target is read before r15 is written, and r15 is not written where the target is not valid. -/
def execCall (t : Operand) (s : State) : Host.Outcome State Fault Refusal :=
  withSource t s fun vt st =>
    transferTo (.call t) vt { stack := st, reg := some (linkReg, s.pcPlus4), nextPc := vt } s

/-- `ret` (R245): r15 is not changed and the stack is not touched. -/
def execRet (s : State) : Host.Outcome State Fault Refusal :=
  transferTo .ret (s.readReg linkReg) { stack := s.stack, nextPc := s.readReg linkReg } s

end Sys2Proof.Machine
end

