-- ==== Sys2Proof/Machine/Move.lean ====
section
/-! DEFINITION. The move instruction (spec/42_move.md). -/

namespace Sys2Proof.Machine

/-- `mov rd s` (R200): the 16-bit pattern is copied, no conversion. -/
def execMov (rd : RegIdx) (a : Operand) (s : State) : Host.Outcome State Fault Refusal :=
  withSource a s fun va st =>
    .next (complete (.mov rd a) { stack := st, reg := some (rd, va), nextPc := s.pcPlus4 } s)

end Sys2Proof.Machine
end

