-- ==== Sys2Proof/Machine/Stack.lean ====
section
/-! DEFINITION. The operand-stack instructions (spec/46_stack.md). -/

namespace Sys2Proof.Machine

/-- The stack holds fewer elements than STACK_CAPACITY, or the capacity is unbounded (R27, R260). -/
def hasRoom (capacity : Option Nat) (stack : List Word) : Bool :=
  match capacity with
  | none => true
  | some n => decide (stack.length < n)

/-- `push v` (R260): the capacity is checked after a Pop source has left the stack. -/
def execPush (v : Operand) (s : State) : Host.Outcome State Fault Refusal :=
  withSource v s fun va st =>
    match hasRoom s.stackCapacity st with
    | true => .next (complete (.push v) { stack := va :: st, nextPc := s.pcPlus4 } s)
    | false => .next (raiseError .stackOverflow s)

/-- `pop` as an instruction (R261): the top element is removed and discarded. -/
def execPop (s : State) : Host.Outcome State Fault Refusal :=
  match s.stack with
  | [] => .next (raiseError .stackUnderflow s)
  | _ :: rest => .next (complete .pop { stack := rest, nextPc := s.pcPlus4 } s)

end Sys2Proof.Machine
end

