-- ==== Sys2Proof/Machine/System.lean ====
section
/-! DEFINITION. The system instructions (spec/47_system.md). -/

namespace Sys2Proof.Machine

/-- `nop` (R270). -/
def execNop (s : State) : Host.Outcome State Fault Refusal :=
  .next (complete .nop { stack := s.stack, nextPc := s.pcPlus4 } s)

/-- `stop` (R271): pc advances past it and the VM halts without error. -/
def execStop (s : State) : Host.Outcome State Fault Refusal :=
  .next (complete .stop { stack := s.stack, nextPc := s.pcPlus4, halt := true } s)

end Sys2Proof.Machine
end

