-- ==== Sys2Proof/Machine/Dispatch.lean ====
section
/-! DEFINITION. `Perform` with operand evaluation, commit, count and trace: one arm per instruction
(spec/41_fetch_decode_execute.md R166). -/

namespace Sys2Proof.Machine

def exec (i : Instr) (s : State) : Host.Outcome State Fault Refusal :=
  match i with
  | .mov rd a => Sys2Proof.Machine.execMov rd a s
  | .add rd a b => Sys2Proof.Machine.execAdd rd a b s
  | .sub rd a b => Sys2Proof.Machine.execSub rd a b s
  | .lt rd a b => Sys2Proof.Machine.execLt rd a b s
  | .gt rd a b => Sys2Proof.Machine.execGt rd a b s
  | .lteq rd a b => Sys2Proof.Machine.execLteq rd a b s
  | .eq a b => Sys2Proof.Machine.execEq a b s
  | .jmpt c t => Sys2Proof.Machine.execJmpt c t s
  | .jmpf c t => Sys2Proof.Machine.execJmpf c t s
  | .call t => Sys2Proof.Machine.execCall t s
  | .ret => Sys2Proof.Machine.execRet s
  | .push v => Sys2Proof.Machine.execPush v s
  | .pop => Sys2Proof.Machine.execPop s
  | .nop => Sys2Proof.Machine.execNop s
  | .stop => Sys2Proof.Machine.execStop s

end Sys2Proof.Machine
end

