-- ==== Sys2Proof/Machine/Step.lean ====
section
/-! DEFINITION. One step of the CORE (spec/41_fetch_decode_execute.md R160 to R166), and the host's way to place one instruction
where the next step fetches it. -/

namespace Sys2Proof.Machine

/-- `Step()` (R166): no step in Halted; a halt without error at the end of the buffer; else fetch into IR, decode, and
execute, an INVALID slot raising InvalidInstructionError. -/
def step (s : State) : Host.Outcome State Fault Refusal :=
  match s.status with
  | .halted _ => .fault .halted
  | .running =>
    match s.atEnd with
    | true => .next (haltAtEnd s)
    | false =>
      match fetchSlot s.mem (u16 s.pc) with
      | none => .fault .fetchOutsideBuffer
      | some sl =>
        match decode sl with
        | .error _ => .next (raiseError .invalidInstruction (s.withIr sl))
        | .ok i => exec i (s.withIr sl)

/-- `s` Running, with the slot of a table word in the buffer at pc and LEN reaching past it: the next step fetches and runs
exactly that slot. It stands for the host's load of a program (log entry 2). -/
def State.withFetchWord (s : State) (nbits w : Nat) : State :=
  { s with
    mem := Memory.writeBytes s.mem (u16 s.pc) (slotOfTableWord nbits w).bytes
    len := max s.len (u16 s.pc + Config.slotBytes)
    status := .running }

end Sys2Proof.Machine
end

