-- ==== Sys2Proof/Machine/Assembler.lean ====
section
/-! DEFINITION. The assembler front-end (spec/40_assembler.md): a pure function from source text to an instruction buffer or one
error. Its own state, the symbol table and the running offset of pass 1, exists during one assembly only (R33); it is
`Layout` here and no part of the machine's State. -/

namespace Sys2Proof.Machine

/-- A token: a maximal run of non-whitespace characters (R113). -/
abbrev Token := List Char

/-! ### Errors (R110, R131, R306) -/

/-- The reason strings of SyntaxError. They are informative; the error kind is normative (R9). -/
inductive SyntaxReason where
  | invalidText
  | malformedLabel
  | duplicateLabel
  | programTooLarge
  | unrecognizedMnemonic
  | operandCount
  | malformedImmediate
  | badRegister
  | malformedOperand
  | destinationNotRegister
  | notEncodable
deriving DecidableEq, Repr

/-- The assembly-time errors (R110), a taxonomy of their own (R306). -/
inductive AsmError where
  | syntaxError (reason : SyntaxReason)
  | undefinedLabelError (name : Token)
deriving DecidableEq, Repr

/-- An error with the number of its line, from 1 (R111); none where the error has no line. The line is informative. -/
structure AsmFailure where
  line : Option Nat
  error : AsmError
deriving DecidableEq, Repr

/-! ### UTF-8 (R111; log entry 6) -/

/-- A multi-byte character begun: how many bytes are still to come, the bits so far, and the range of the next byte. -/
structure Utf8Pending where
  need : Nat
  acc : Nat
  lo : Nat
  hi : Nat
deriving DecidableEq, Repr

/-- What a first byte of two or more begins; `none` where no character begins with it. -/
def utf8Begin (b : Nat) : Option Utf8Pending :=
  if 0xC2 ≤ b ∧ b ≤ 0xDF then some { need := 1, acc := b - 0xC0, lo := 0x80, hi := 0xBF }
  else if b = 0xE0 then some { need := 2, acc := 0, lo := 0xA0, hi := 0xBF }
  else if b = 0xED then some { need := 2, acc := 0xD, lo := 0x80, hi := 0x9F }
  else if 0xE1 ≤ b ∧ b ≤ 0xEF then some { need := 2, acc := b - 0xE0, lo := 0x80, hi := 0xBF }
  else if b = 0xF0 then some { need := 3, acc := 0, lo := 0x90, hi := 0xBF }
  else if 0xF1 ≤ b ∧ b ≤ 0xF3 then some { need := 3, acc := b - 0xF0, lo := 0x80, hi := 0xBF }
  else if b = 0xF4 then some { need := 3, acc := 4, lo := 0x80, hi := 0x8F }
  else none

/-- The characters of the bytes, given a character begun, if there is one. -/
def utf8Go (pending : Option Utf8Pending) (bytes : List Byte) : Option (List Char) :=
  match bytes with
  | [] => match pending with
    | none => some []
    | some _ => none
  | b :: rest =>
    match pending with
    | none =>
      if b.toNat < 0x80 then (utf8Go none rest).map (Char.ofNat b.toNat :: ·)
      else match utf8Begin b.toNat with
        | none => none
        | some p => utf8Go (some p) rest
    | some p =>
      if p.lo ≤ b.toNat ∧ b.toNat ≤ p.hi then
        match p.need with
        | 0 => none
        | 1 => (utf8Go none rest).map (Char.ofNat (p.acc * 64 + (b.toNat - 0x80)) :: ·)
        | n + 2 => utf8Go (some { need := n + 1, acc := p.acc * 64 + (b.toNat - 0x80), lo := 0x80, hi := 0xBF }) rest
      else none

/-- The text as characters; `none` where the bytes are not valid UTF-8 (R111). -/
def utf8Decode (bytes : List Byte) : Option (List Char) := utf8Go none bytes

/-! ### Lines and tokens (R111 to R114) -/

/-- A character put at the front of the first line. -/
def consToFirst (c : Char) (lines : List (List Char)) : List (List Char) :=
  match lines with
  | [] => [[c]]
  | l :: rest => (c :: l) :: rest

/-- The lines of a text, split at each line feed; the text after the last line feed is a line if it is not empty (R111). -/
def splitLines (text : List Char) : List (List Char) :=
  match text with
  | [] => []
  | c :: rest => if c = '\n' then [] :: splitLines rest else consToFirst c (splitLines rest)

/-- The line without its comment: the first `;` and all after it are removed (R112). -/
def stripComment (line : List Char) : List Char := line.takeWhile fun c => c != ';'

/-- Space, tab and carriage return (R113). -/
def isBlank (c : Char) : Bool := c == ' ' || c == '\t' || c == '\r'

/-- The tokens of a line, given the characters of the token begun, last first. -/
def tokensGo (cur : List Char) (line : List Char) : List Token :=
  match line with
  | [] => if cur = [] then [] else [cur.reverse]
  | c :: rest =>
    if isBlank c then (if cur = [] then tokensGo [] rest else cur.reverse :: tokensGo [] rest)
    else tokensGo (c :: cur) rest

/-- `tokens(L)` (R9, R113). -/
def tokens (line : List Char) : List Token := tokensGo [] (stripComment line)

/-- The three kinds of line (R114): a LABEL line with its one token, an INSTRUCTION line with its first token and the
rest. -/
inductive LineKind where
  | empty
  | label (tok : Token)
  | instruction (mnemonic : Token) (operands : List Token)
deriving DecidableEq, Repr

/-- The kind of a line, decided from its tokens (R114). -/
def lineKind (toks : List Token) : LineKind :=
  match toks with
  | [] => .empty
  | [t] => if t.getLast? = some ':' then .label t else .instruction t []
  | t :: ops => .instruction t ops

/-- The kinds of the source's lines, in order (R110, R111). -/
def sourceLines (text : List Char) : List LineKind := (splitLines text).map fun l => lineKind (tokens l)

/-! ### Token forms (R115, R123 to R125) -/

def isDigit (c : Char) : Bool := decide ('0'.toNat ≤ c.toNat) && decide (c.toNat ≤ '9'.toNat)

def isLetter (c : Char) : Bool :=
  (decide ('A'.toNat ≤ c.toNat) && decide (c.toNat ≤ 'Z'.toNat)) ||
  (decide ('a'.toNat ≤ c.toNat) && decide (c.toNat ≤ 'z'.toNat))

/-- `[A-Za-z_][A-Za-z0-9_]*` (R115, R123). -/
def isIdentifier (t : Token) : Bool :=
  match t with
  | [] => false
  | c :: rest => (isLetter c || c == '_') && rest.all fun d => isLetter d || isDigit d || d == '_'

/-- One or more decimal digits. -/
def isDigits (t : Token) : Bool := !t.isEmpty && t.all isDigit

/-- The register form `r[0-9]+` (R115, R123). -/
def isRegisterForm (t : Token) : Bool :=
  match t with
  | 'r' :: ds => isDigits ds
  | _ => false

/-- The value of decimal digits. -/
def digitsValue (t : Token) : Nat := t.foldl (fun n c => n * 10 + (c.toNat - '0'.toNat)) 0

/-- `ParseReg` (R124): exactly `r0` to `r15`, no leading zeros. -/
def parseReg (t : Token) : Except AsmError Operand :=
  let ds := t.drop 1
  if h : digitsValue ds < 16 then
    if 1 < ds.length ∧ ds.head? = some '0' then .error (.syntaxError .badRegister)
    else .ok (.reg ⟨digitsValue ds, h⟩)
  else .error (.syntaxError .badRegister)

/-- The value of `-?[0-9]+` (R125). -/
def decimalValue (t : Token) : Option Int :=
  match t with
  | '-' :: ds => if isDigits ds then some (-(digitsValue ds : Int)) else none
  | ds => if isDigits ds then some (digitsValue ds : Int) else none

/-- `ParseImm` (R125): `#-?[0-9]+` in -32768 to 32767. -/
def parseImm (t : Token) : Except AsmError Operand :=
  match decimalValue (t.drop 1) with
  | none => .error (.syntaxError .malformedImmediate)
  | some n =>
    if -32768 ≤ n ∧ n ≤ 32767 then .ok (.imm (w16 n)) else .error (.syntaxError .malformedImmediate)

/-! ### Pass 1 (R115 to R119) -/

/-- The assembler's state in pass 1 (R33): the symbol table SYM and the running byte offset. -/
structure Layout where
  sym : List (Token × Nat)
  off : Nat
deriving DecidableEq, Repr

/-- The start of each assembly: SYM empty, offset 0 (R33, R40, R116). -/
def Layout.start : Layout := { sym := [], off := 0 }

/-- The offset a label is bound to, if it is declared. -/
def lookupLabel (sym : List (Token × Nat)) (name : Token) : Option Nat :=
  match sym with
  | [] => none
  | (n, off) :: rest => if n = name then some off else lookupLabel rest name

/-- A label name (R115): the LABEL token without its final `:`; `none` if it is malformed. -/
def labelName (tok : Token) : Option Token :=
  let name := tok.dropLast
  if isIdentifier name && !isRegisterForm name && name != "pop".toList then some name else none

/-- `Pass1Line(L)` (R116, R117). -/
def pass1Line (ly : Layout) (l : LineKind) : Except AsmError Layout :=
  match l with
  | .empty => .ok ly
  | .label tok =>
    match labelName tok with
    | none => .error (.syntaxError .malformedLabel)
    | some name =>
      match lookupLabel ly.sym name with
      | some _ => .error (.syntaxError .duplicateLabel)
      | none => .ok { ly with sym := ly.sym ++ [(name, ly.off)] }
  | .instruction _ _ => .ok { ly with off := ly.off + Config.slotBytes }

/-- Pass 1 over the lines, `n` the number of the first (R116). -/
def pass1 (n : Nat) (ly : Layout) (lines : List LineKind) : Except AsmFailure Layout :=
  match lines with
  | [] => .ok ly
  | l :: rest =>
    match pass1Line ly l with
    | .error e => .error { line := some n, error := e }
    | .ok ly' => pass1 (n + 1) ly' rest

/-! ### Pass 2 (R120 to R130) -/

/-- The lowercase mnemonic of an operation (R75, R121). -/
def mnemonicOf : Op → String
  | .mov => "mov" | .add => "add" | .sub => "sub" | .lt => "lt" | .gt => "gt" | .lteq => "lteq" | .eq => "eq"
  | .jmpt => "jmpt" | .jmpf => "jmpf" | .call => "call" | .ret => "ret" | .push => "push" | .pop => "pop"
  | .nop => "nop" | .stop => "stop"

/-- The operation a mnemonic token names (R121). -/
def opOfMnemonic (t : Token) : Option Op := Op.all.find? fun o => (mnemonicOf o).toList == t

/-- The number of operands of an operation (R122): its destination, if it has one, and its sources. -/
def opArity (o : Op) : Nat := o.hasDst.toNat + o.nSrc

/-- `Classify(t)` (R123 to R127): the first test the token meets decides. -/
def classify (sym : List (Token × Nat)) (t : Token) : Except AsmError Operand :=
  if t.head? = some '#' then parseImm t
  else if isRegisterForm t then parseReg t
  else if t = "pop".toList then .ok .pop
  else if isIdentifier t then
    match lookupLabel sym t with
    | some off => .ok (.imm (w16 off))
    | none => .error (.undefinedLabelError t)
  else .error (.syntaxError .malformedOperand)

/-- The operands classified, left to right; the first that fails decides the error (R123). -/
def classifyAll (sym : List (Token × Nat)) (ts : List Token) : Except AsmError (List Operand) :=
  match ts with
  | [] => .ok []
  | t :: rest =>
    match classify sym t with
    | .error e => .error e
    | .ok o =>
      match classifyAll sym rest with
      | .error e => .error e
      | .ok os => .ok (o :: os)

/-- The operands split into a destination, where the operation has one, and the sources (R128). -/
def splitDst (hasDst : Bool) (os : List Operand) : Except AsmError (Option RegIdx × List Operand) :=
  match hasDst, os with
  | true, .reg r :: rest => .ok (some r, rest)
  | true, _ => .error (.syntaxError .destinationNotRegister)
  | false, os => .ok (none, os)

/-- An instruction that fits the slot (R129). -/
def fitSlot (op : Op) (dst : Option RegIdx) (srcs : List Operand) : Except AsmError Instr :=
  match Instr.build op dst srcs[0]? srcs[1]? with
  | none => .error (.syntaxError .operandCount)
  | some i => if i.wf then .ok i else .error (.syntaxError .notEncodable)

/-- `EncodeLine(L)` up to the instruction (R121 to R129), with the order of errors of R131. -/
def assembleLine (sym : List (Token × Nat)) (mnemonic : Token) (operands : List Token) : Except AsmError Instr :=
  match opOfMnemonic mnemonic with
  | none => .error (.syntaxError .unrecognizedMnemonic)
  | some op =>
    if operands.length ≠ opArity op then .error (.syntaxError .operandCount)
    else match classifyAll sym operands with
      | .error e => .error e
      | .ok os =>
        match splitDst op.hasDst os with
        | .error e => .error e
        | .ok (dst, srcs) => fitSlot op dst srcs

/-- Pass 2 over the lines, `n` the number of the first: one instruction for each INSTRUCTION line (R120). -/
def pass2 (sym : List (Token × Nat)) (n : Nat) (lines : List LineKind) : Except AsmFailure (List Instr) :=
  match lines with
  | [] => .ok []
  | .empty :: rest => pass2 sym (n + 1) rest
  | .label _ :: rest => pass2 sym (n + 1) rest
  | .instruction m ops :: rest =>
    match assembleLine sym m ops with
    | .error e => .error { line := some n, error := e }
    | .ok i =>
      match pass2 sym (n + 1) rest with
      | .error f => .error f
      | .ok is => .ok (i :: is)

/-! ### The whole assembler (R110) -/

/-- The instructions' slots, concatenated in source order (R130). -/
def encodeAll (is : List Instr) : List Byte :=
  match is with
  | [] => []
  | i :: rest => (encode i).bytes ++ encodeAll rest

/-- The instructions of a source given as lines, with SYM: pass 1, the size check, pass 2 (R110, R118, R131). -/
def assembleLines (lines : List LineKind) : Except AsmFailure (List Instr) :=
  match pass1 1 Layout.start lines with
  | .error f => .error f
  | .ok ly =>
    if Config.maxProgramBytes < ly.off then .error { line := none, error := .syntaxError .programTooLarge }
    else pass2 ly.sym 1 lines

/-- `assemble(sourceText)` (R110): the buffer, or the first error in the order of R131. -/
def assemble (source : List Byte) : Except AsmFailure (List Byte) :=
  match utf8Decode source with
  | none => .error { line := none, error := .syntaxError .invalidText }
  | some text =>
    match assembleLines (sourceLines text) with
    | .error f => .error f
    | .ok is => .ok (encodeAll is)

end Sys2Proof.Machine
end

