-- ==== Sys2Proof/Machine/Ports.lean ====
section
/-! DEFINITION. The host interface of the CORE (spec/60_exceptions.md R321 to R324, spec/70_reset_and_hazards.md R340, R341): reset,
run, the register, status, statistics and trace readouts. The host's `step` is `Sys2Proof.Machine.step`. The host writes
no state except through reset, and reads no pc, IR, stack or CMPF (R321). -/

namespace Sys2Proof.Machine

/-- The default INIT_REGS: sixteen zeros (R5, R340). -/
def defaultInitRegs : Vector Word 16 := Vector.replicate 16 0#16

/-- The default MODE: neither DEBUG_MODE nor STATS_MODE (R340). -/
def defaultMode : Mode := { debug := false, stats := false }

/-- A buffer length that reset accepts (R29, R341). -/
def acceptsLength (n : Nat) : Bool := decide (n % 4 = 0) && decide (n ≤ Config.maxProgramBytes)

/-- The state that an accepted reset sets, in one indivisible action (R340). It discards all state; STACK_CAPACITY is a
parameter of the hardware and stays (log entry 1). -/
def resetState (buffer : List Byte) (initRegs : Vector Word 16) (mode : Mode) (s : State) : State :=
  { regs := initRegs
    pc := 0#16
    ir := 0#32
    stack := []
    stackCapacity := s.stackCapacity
    cmpf := false
    mem := Memory.ofBytes 0 buffer
    len := buffer.length
    status := .running
    mode := mode
    instret := 0#64
    opcount := Vector.replicate 15 0#64
    trace := [] }

/-- `Reset(buffer, INIT_REGS, DEBUG_MODE, STATS_MODE)` (R340), at any time; a bad length is refused (R341). -/
def hostReset (buffer : List Byte) (initRegs : Vector Word 16) (mode : Mode) (s : State) :
    Host.Outcome State Fault Refusal :=
  match acceptsLength buffer.length with
  | true => .next (resetState buffer initRegs mode s)
  | false => .refused (.bufferRefused buffer.length)

/-- `run` (R321): steps until STATUS.RUN = 0, at most `n` of them. A run that the host cuts short leaves the state after
its last completed step (R324), which the answer's STATUS tells. -/
def run (n : Nat) (s : State) : Host.Outcome State Fault Refusal :=
  match n with
  | 0 => .next s
  | k + 1 =>
    match s.status with
    | .halted _ => .next s
    | .running =>
      match step s with
      | .next t => run k t
      | .fault f => .fault f
      | .refused r => .refused r

/-- `execute(instructionBuffer)` is reset followed by run (R321), here at most `n` steps of it. -/
def execute (n : Nat) (buffer : List Byte) (initRegs : Vector Word 16) (mode : Mode) (s : State) :
    Host.Outcome State Fault Refusal :=
  match hostReset buffer initRegs mode s with
  | .next t => run n t
  | .fault f => .fault f
  | .refused r => .refused r

/-- `readRegister(i)` (R321): `x[i]`, or InvalidRegisterError for an index outside 0 to 15. It changes no state. -/
def readRegister (i : Int) (s : State) : Except ExecutionError Word :=
  if h : 0 ≤ i ∧ i < 16 then .ok (s.readReg ⟨i.toNat, by omega⟩) else .error .invalidRegister

/-- The conventional exit value `x[0]` (R321). -/
def exitValue (s : State) : Word := s.readReg 0

/-- `readStatus` (R321): the STATUS register. -/
def readStatus (s : State) : BitVec 16 := s.status.word

/-- The ExecutionError value, or none, that tells success from failure (R321). -/
def readError (s : State) : Option ExecutionError :=
  match s.status with
  | .running => none
  | .halted e => e

/-- `readStats` (R321): INSTRET and OPCOUNT where STATS_MODE = 1, and no counters otherwise. -/
def readStats (s : State) : Option (Counter × Vector Counter 15) :=
  match s.mode.stats with
  | true => some (s.instret, s.opcount)
  | false => none

/-- `trace` (R321, R322): the records emitted since reset where DEBUG_MODE = 1, and no stream otherwise. -/
def readTrace (s : State) : Option (List TraceRecord) :=
  match s.mode.debug with
  | true => some s.trace
  | false => none

end Sys2Proof.Machine
end

