-- ==== Sys2Proof/Safety.lean ====
section
/-! DEFINITION. What the claims about the machine are stated in: the invariant of reachable states, reachability itself, what
every instruction leaves alone, what a completed instruction counts and emits, and states with the observers or CMPF
hidden. -/

namespace Sys2Proof.Machine

/-! ### Reachable states -/

/-- The sum of OPCOUNT over the fifteen operations, modulo 2^64. -/
def State.totalCount (s : State) : Counter := (Op.all.map s.opCount).sum

/-- What holds of every reachable state: LEN and the buffer (R29, R50), pc (R24), the stack's bound (R27), the errors that
occur (R302, R301), and the observers (R320, R322). -/
structure State.Inv (s : State) : Prop where
  lenAligned : s.len % 4 = 0
  lenBound : s.len ≤ Config.maxProgramBytes
  pcAligned : u16 s.pc % 4 = 0
  pcBound : u16 s.pc ≤ s.len
  memCanonical : Memory.wf s.mem = true
  memIsBuffer : ∀ a, (Memory.read s.mem a).isSome = decide (a < s.len)
  stackBound : ∀ n, s.stackCapacity = some n → s.stack.length ≤ n
  neverInvalidRegister : s.status ≠ .halted (some .invalidRegister)
  overflowNeedsBound : s.status = .halted (some .stackOverflow) → s.stackCapacity ≠ none
  countsBalance : s.instret = s.totalCount
  traceOff : s.mode.debug = false → s.trace = []
  traceOn : s.mode.debug = true → BitVec.ofNat 64 s.trace.length = s.instret
  tracePcs : ∀ r ∈ s.trace, u16 r.pc % 4 = 0 ∧ u16 r.pc < s.len

/-- `t` is reached from `s` by zero or more steps. -/
inductive Steps (s : State) : State → Prop where
  | refl : Steps s s
  | tail {t u : State} : Steps s t → step t = .next u → Steps s u

/-- The four bytes of `sl` stand in the buffer at pc. -/
def State.SlotAtPc (s : State) (sl : Slot) : Prop :=
  Memory.read s.mem (u16 s.pc) = some sl.b0 ∧ Memory.read s.mem (u16 s.pc + 1) = some sl.b1 ∧
  Memory.read s.mem (u16 s.pc + 2) = some sl.b2 ∧ Memory.read s.mem (u16 s.pc + 3) = some sl.b3

/-- Every slot of the buffer, at each multiple of 4 below LEN (R55), decodes to an instruction (R78). -/
def State.AllSlotsDecode (s : State) : Prop :=
  ∀ a, a % 4 = 0 → a < s.len → ∃ sl i, fetchSlot s.mem a = some sl ∧ decode sl = .ok i

/-! ### Frames -/

/-- What no instruction writes: every byte of the buffer, LEN, MODE, IR and STACK_CAPACITY. -/
structure KeepsProgram (s t : State) : Prop where
  mem : ∀ a, Memory.read t.mem a = Memory.read s.mem a
  len : t.len = s.len
  mode : t.mode = s.mode
  ir : t.ir = s.ir
  stackCapacity : t.stackCapacity = s.stackCapacity

/-- What a completed instruction counts and emits (R320, R322): INSTRET and its own OPCOUNT by one modulo 2^64, no other
OPCOUNT, and one trace record where DEBUG_MODE = 1. -/
structure CountsAs (i : Instr) (s t : State) : Prop where
  instret : t.instret = s.instret + 1#64
  own : t.opCount i.op = s.opCount i.op + 1#64
  others : ∀ o, o ≠ i.op → t.opCount o = s.opCount o
  traceOn : s.mode.debug = true → t.trace = s.trace ++ [{ pc := s.pc, instr := i, regs := t.regs }]
  traceOff : s.mode.debug = false → t.trace = s.trace

/-- Every register is unchanged. -/
def KeepsRegs (s t : State) : Prop := ∀ j, t.readReg j = s.readReg j

/-- Register `rd` holds `v`, and every other register is unchanged. -/
def WritesReg (rd : RegIdx) (v : Word) (s t : State) : Prop :=
  t.readReg rd = v ∧ ∀ j, j ≠ rd → t.readReg j = s.readReg j

/-- The state that error `e` leaves (R304): STATUS alone differs, with RUN = 0 and ERR the code of `e`. -/
def ErrorState (e : ExecutionError) (s : State) : State := { s with status := .halted (some e) }

/-- IR after the fetch of `sl`: B0 in bits 31:24 down to B3 in bits 7:0 (R25). -/
def State.fetched (s : State) (sl : Slot) : State := { s with ir := sl.b0 ++ sl.b1 ++ sl.b2 ++ sl.b3 }

/-! ### Encodings, as spec/30_encoding.md R77 lists them -/

/-- The legal B0 values of an operation, transcribed from the table of R77. -/
def legalB0 : Op → List Byte
  | .mov => [0x40, 0x80, 0xC0]
  | .add => [0x61, 0x71, 0x91, 0xB1, 0xD1, 0xE1, 0xF1]
  | .sub => [0x62, 0x72, 0x92, 0xB2, 0xD2, 0xE2, 0xF2]
  | .lt => [0x63, 0x73, 0x93, 0xB3, 0xD3, 0xE3, 0xF3]
  | .gt => [0x64, 0x74, 0x94, 0xB4, 0xD4, 0xE4, 0xF4]
  | .lteq => [0x65, 0x75, 0x95, 0xB5, 0xD5, 0xE5, 0xF5]
  | .eq => [0x56, 0x66, 0x76, 0x96, 0xB6, 0xD6, 0xE6, 0xF6]
  | .jmpt => [0x57, 0x67, 0x77, 0x97, 0xB7, 0xD7, 0xE7, 0xF7]
  | .jmpf => [0x58, 0x68, 0x78, 0x98, 0xB8, 0xD8, 0xE8, 0xF8]
  | .call => [0x49, 0x89, 0xC9]
  | .ret => [0x0A]
  | .push => [0x4B, 0x8B, 0xCB]
  | .pop => [0x0C]
  | .nop => [0x0D]
  | .stop => [0x0E]

/-- The instruction has an IMM source. -/
def usesImm (i : Instr) : Bool :=
  (Operand.immediate i.sources.1).isSome || (Operand.immediate i.sources.2).isSome

/-- The elements an instruction takes off the stack: its Pop sources (R171), and one for the `pop` instruction (R261). -/
def popDemand (i : Instr) : Nat :=
  popCount (i.sources.1.toList ++ i.sources.2.toList) + if i = .pop then 1 else 0

/-- Instruction `i` at `s` transfers to `v`: a taken `jmpt` or `jmpf`, a `call`, or a `ret` (R240 to R245). -/
inductive Transfers (s : State) : Instr → Word → Prop where
  | jmpt {c t : Operand} {vc vt : Word} {st : List Word} (h : evalSources c t s = some (vc, vt, st))
      (taken : vc ≠ 0#16) : Transfers s (.jmpt c t) vt
  | jmpf {c t : Operand} {vc vt : Word} {st : List Word} (h : evalSources c t s = some (vc, vt, st))
      (taken : vc = 0#16) : Transfers s (.jmpf c t) vt
  | call {t : Operand} {vt : Word} {st : List Word} (h : evalSource t s = some (vt, st)) : Transfers s (.call t) vt
  | ret : Transfers s .ret (s.readReg 15)

/-! ### Hidden state -/

/-- The state with MODE, the counters and the trace hidden. -/
def State.hideObservers (s : State) : State :=
  { s with
    mode := { debug := false, stats := false }
    instret := 0#64
    opcount := Vector.replicate 15 0#64
    trace := [] }

/-- The state with CMPF hidden. -/
def State.hideCmpf (s : State) : State := { s with cmpf := false }

/-- An outcome with its next state, if it has one, passed through `f`. -/
def mapNext (f : State → State) (o : Host.Outcome State Fault Refusal) : Host.Outcome State Fault Refusal :=
  match o with
  | .next t => .next (f t)
  | .fault r => .fault r
  | .refused r => .refused r

/-! ### Sources as lines -/

/-- The number of INSTRUCTION lines. -/
def instrLines (lines : List LineKind) : Nat :=
  match lines with
  | [] => 0
  | .empty :: rest => instrLines rest
  | .label _ :: rest => instrLines rest
  | .instruction _ _ :: rest => instrLines rest + 1

/-- The lines declare the label `name`, after `before` of them. -/
def DeclaresAfter (lines before : List LineKind) (name : Token) : Prop :=
  ∃ tok after, lines = before ++ .label tok :: after ∧ labelName tok = some name

end Sys2Proof.Machine
end

