-- ==== Sys2Proof/Certificates/Slice0/Obligations.lean ====
section
/-! DEFINITION. The statements about the CORE, from the numbered rules of spec/. Each docstring names the rule or section it
formalises. -/

open Sys2Proof Sys2Proof.Machine

/-! ### Encoding (spec/30_encoding.md) -/

/-- R82: the bytes `Encode` writes, and `Decode(Encode(i)) = i` for every form that satisfies R77. -/
def Obligations.EncodeFillsTheSlotAndDecodesBack : Prop :=
  ∀ i : Instr,
    (encode i).b0.toNat =
        (Kind.ofOperand i.sources.1).code.toNat * 64 + (Kind.ofOperand i.sources.2).code.toNat * 16 + i.op.index.val ∧
    (encode i).b1.toNat = (i.registers[0]?.getD 0).val * 16 + (i.registers[1]?.getD 0).val ∧
    (∀ v : Word, (i.sources.1 = some (.imm v) ∨ i.sources.2 = some (.imm v)) → i.wf = true →
        (encode i).b2.toNat = v.toNat % 256 ∧ (encode i).b3.toNat = v.toNat / 256) ∧
    (usesImm i = false → (encode i).b2 = 0 ∧ (encode i).b3 = 0) ∧
    (i.wf = true → decode (encode i) = .ok i)

/-- R77: an encoding is legal exactly where (a) to (d) hold, the legal opcode bytes are exactly those of the table, and
they are 72. -/
def Obligations.LegalOpcodeBytesAreTheTable : Prop :=
  (∀ (sl : Slot) (o : Op), (∃ i, decode sl = .ok i ∧ i.op = o) ↔ sl.b0 ∈ legalB0 o) ∧
  (∀ sl : Slot, (∃ i, decode sl = .ok i) ↔
    ∃ (o : Op) (ka kb : Kind),
      sl.b0.toNat = ka.code.toNat * 64 + kb.code.toNat * 16 + o.index.val ∧
      (o.nSrc = 0 → ka = .none ∧ kb = .none) ∧
      (o.nSrc = 1 → ka ≠ .none ∧ kb = .none) ∧
      (o.nSrc = 2 → ka ≠ .none ∧ kb ≠ .none) ∧
      ¬ (ka = .imm ∧ kb = .imm) ∧
      (if o.hasDst then 1 else 0) + (if ka = .reg then 1 else 0) + (if kb = .reg then 1 else 0) ≤ 2) ∧
  (Op.all.flatMap legalB0).Nodup ∧ (Op.all.flatMap legalB0).length = 72

/-- R74: the register operands, in the order destination, A, B, are at most two and stand in RX and then RY. With it, from
sections 1 and 4: the operation, the kinds and the immediate are the fields of R70 and R76, and what decodes fits the
slot. -/
def Obligations.DecodeFillsOperandsInOrder : Prop :=
  ∀ (sl : Slot) (i : Instr), decode sl = .ok i →
    i.registers.length ≤ 2 ∧
    i.registers.map Fin.val = [sl.b1.toNat / 16, sl.b1.toNat % 16].take i.registers.length ∧
    i.op.index.val = sl.b0.toNat % 16 ∧
    (Kind.ofOperand i.sources.1).code.toNat = sl.b0.toNat / 64 ∧
    (Kind.ofOperand i.sources.2).code.toNat = sl.b0.toNat / 16 % 4 ∧
    (∀ v : Word, (i.sources.1 = some (.imm v) ∨ i.sources.2 = some (.imm v)) →
      v.toNat = sl.b2.toNat + 256 * sl.b3.toNat) ∧
    i.wf = true

/-- R79: two slots that differ only in unused fields decode to the same instruction, and `Encode(Decode(w)) = w` holds
exactly for the slots whose unused fields are zero. -/
def Obligations.UnusedFieldsAreIgnoredAndWrittenZero : Prop :=
  (∀ (sl sl' : Slot) (i : Instr), decode sl = .ok i → sl'.b0 = sl.b0 →
    (1 ≤ i.registers.length → sl'.b1.toNat / 16 = sl.b1.toNat / 16) →
    (2 ≤ i.registers.length → sl'.b1.toNat % 16 = sl.b1.toNat % 16) →
    (usesImm i = true → sl'.b2 = sl.b2 ∧ sl'.b3 = sl.b3) →
    decode sl' = .ok i) ∧
  (∀ (sl : Slot) (i : Instr), decode sl = .ok i →
    (encode i = sl ↔
      (i.registers.length < 1 → sl.b1.toNat / 16 = 0) ∧
      (i.registers.length < 2 → sl.b1.toNat % 16 = 0) ∧
      (usesImm i = false → sl.b2 = 0 ∧ sl.b3 = 0)))

/-- Words written out from the encodings of sections 1 to 5 decode to the instructions they stand for, one or more of each
family, and reserved and illegal ones are refused. -/
def Obligations.DecoderReadsWordsOfTheSpec : Prop :=
  decode ⟨0x80, 0x10, 0x04, 0x01⟩ = .ok (.mov 1 (.imm 260)) ∧
  decode ⟨0x91, 0x02, 0x00, 0x80⟩ = .ok (.add 0 (.imm 0x8000) (.reg 2)) ∧
  decode ⟨0x63, 0x21, 0x03, 0x00⟩ = .ok (.lt 2 (.reg 1) (.imm 3)) ∧
  decode ⟨0x57, 0x09, 0x00, 0x00⟩ = .ok (.jmpt (.reg 0) (.reg 9)) ∧
  decode ⟨0xC9, 0xAB, 0x00, 0x00⟩ = .ok (.call .pop) ∧
  decode ⟨0x4B, 0xF0, 0x00, 0x00⟩ = .ok (.push (.reg 15)) ∧
  decode ⟨0x0D, 0xFF, 0xFF, 0xFF⟩ = .ok .nop ∧
  decode ⟨0x0F, 0x00, 0x00, 0x00⟩ = .error .reservedOperation ∧
  decode ⟨0xA6, 0x00, 0x00, 0x00⟩ = .error .twoImmediates

/-! ### The step (spec/41_fetch_decode_execute.md, spec/60_exceptions.md) -/

/-- Section 2 (R163 to R166): where the bytes at pc decode, a step is that instruction, executed with IR written. -/
def Obligations.StepRunsTheDecodedInstruction : Prop :=
  ∀ (s : State) (sl : Slot) (i : Instr), s.status = .running → s.pc.toNat < s.len → s.SlotAtPc sl →
    decode sl = .ok i → step s = exec i (s.fetched sl)

/-- R162: at or past the end of the buffer the VM enters Halted with ERR = 0 and nothing else changes. -/
def Obligations.EndOfBufferHaltsWithoutError : Prop :=
  ∀ s : State, s.status = .running → s.len ≤ s.pc.toNat →
    step s = .next { s with status := .halted none } ∧ readStatus { s with status := .halted none } = 0

/-- R80: fetching a slot whose B0 is not in R77's table raises InvalidInstructionError, for any B1, B2, B3. -/
def Obligations.IllegalSlotRaisesInvalidInstruction : Prop :=
  ∀ (s : State) (sl : Slot), (∀ o, sl.b0 ∉ legalB0 o) →
    (∀ i, decode sl ≠ .ok i) ∧
    (s.status = .running → s.pc.toNat < s.len → s.SlotAtPc sl →
      step s = .next (ErrorState .invalidInstruction (s.fetched sl)))

/-- 41 section 1, 60 sections 4 and 6 (R160, R310, R321): Halted has no step, and a run leaves it as it is. That `step` answers
the fault `halted` for it is the model's form (log entry 8), and so is a run of at most `n` steps (log entry 13). -/
def Obligations.HaltedHasNoStep : Prop :=
  ∀ (s : State) (e : Option ExecutionError) (n : Nat), s.status = .halted e →
    step s = .fault .halted ∧ run n s = .next s

/-- R304: a step that raises an error changes STATUS (RUN <- 0, ERR <- its code) and IR, which keeps the slot fetched, and
nothing else: registers, stack, CMPF, pc, counters and trace are those of its start. -/
def Obligations.ErrorStepCommitsNothing : Prop :=
  ∀ (s t : State) (e : ExecutionError), step s = .next t → t.status = .halted (some e) →
    ∃ sl, s.SlotAtPc sl ∧
      t = { s with ir := sl.b0 ++ sl.b1 ++ sl.b2 ++ sl.b3, status := .halted (some e) } ∧
      (readStatus t).toNat = 2 * e.code.toNat

/-- R302: execution never raises InvalidRegisterError. -/
def Obligations.ExecutionNeverRaisesInvalidRegister : Prop :=
  ∀ s t : State, step s = .next t → t.status ≠ .halted (some .invalidRegister)

/-- R303: the first error in the order of the step is the one reported: decode, then underflow, then the operation's own
(OutOfBoundsJumpError of a transfer, StackOverflowError of `push`). -/
def Obligations.ErrorPriorityIsTheStepsOrder : Prop :=
  ∀ (s : State) (sl : Slot), s.status = .running → s.pc.toNat < s.len → s.SlotAtPc sl →
    ((∀ i, decode sl ≠ .ok i) → step s = .next (ErrorState .invalidInstruction (s.fetched sl))) ∧
    (∀ i, decode sl = .ok i →
      (s.stack.length < popDemand i → step s = .next (ErrorState .stackUnderflow (s.fetched sl))) ∧
      (popDemand i ≤ s.stack.length → ∀ t e, step s = .next t → t.status = .halted (some e) →
        (e = .outOfBoundsJump ∧ (i.op = .jmpt ∨ i.op = .jmpf ∨ i.op = .call ∨ i.op = .ret)) ∨
        (e = .stackOverflow ∧ i.op = .push)))

/-- 60 sections 5 and 6 (R320, R322): a completed step counts one instruction of its operation and, with DEBUG_MODE = 1, emits one record of its
pc, its decoded form and the registers after it; a faulting step and the halt at the end of the buffer do neither. -/
def Obligations.CompletedStepsCountAndTrace : Prop :=
  ∀ s t : State, step s = .next t →
    ((s.len ≤ s.pc.toNat ∨ ∃ e, t.status = .halted (some e)) →
      t.instret = s.instret ∧ (∀ o, t.opCount o = s.opCount o) ∧ t.trace = s.trace) ∧
    (s.pc.toNat < s.len → (∀ e, t.status ≠ .halted (some e)) →
      ∃ sl i, s.SlotAtPc sl ∧ decode sl = .ok i ∧ CountsAs i s t)

/-- 41 section 2 (R165) and 45 (R240): a step leaves pc where it is only as it halts; else it advances pc by 4 or
transfers to a valid target by a taken jump, a call or a return. -/
def Obligations.PcAdvancesOrTransfers : Prop :=
  ∀ s t : State, step s = .next t →
    (t.pc = s.pc ∧ t.status ≠ .running) ∨ t.pc = s.pc + 4#16 ∨
    ∃ sl i, s.SlotAtPc sl ∧ decode sl = .ok i ∧ Transfers s i t.pc ∧ t.pc.toNat < s.len ∧ t.pc.toNat % 4 = 0

/-- 41 sections 1 and 2 (R160 to R162, R166) and 47: a step that halts without error is the end of the buffer or `stop`. -/
def Obligations.OnlyStopAndTheEndHaltWithoutError : Prop :=
  ∀ s t : State, step s = .next t → t.status = .halted none →
    s.len ≤ s.pc.toNat ∨ ∃ sl, s.SlotAtPc sl ∧ decode sl = .ok .stop

/-- 10 section 1 (R22): at most one register is written per instruction, and a step that writes one executes an instruction
that names it as its destination, or a `call`, which writes r15. -/
def Obligations.AtMostOneRegisterPerStep : Prop :=
  ∀ s t : State, step s = .next t →
    KeepsRegs s t ∨
    ∃ sl i rd, s.SlotAtPc sl ∧ decode sl = .ok i ∧ (i.dst = some rd ∨ (i.op = .call ∧ rd = 15)) ∧
      ∀ j, j ≠ rd → t.readReg j = s.readReg j

/-- 20 sections 1 and 4 (R51, R54): no step writes the buffer, LEN, MODE or STACK_CAPACITY. -/
def Obligations.StepKeepsTheProgram : Prop :=
  ∀ s t : State, step s = .next t →
    (∀ a, Memory.read t.mem a = Memory.read s.mem a) ∧ t.len = s.len ∧ t.mode = s.mode ∧
    t.stackCapacity = s.stackCapacity

/-- 10 section 6 and 60 section 5 (R31, R320): MODE, the counters and the trace are pure observers: two states that differ
in nothing else step to outcomes that differ in nothing else. -/
def Obligations.ObserversDoNotChangeExecution : Prop :=
  ∀ s s' : State, s.hideObservers = s'.hideObservers →
    mapNext State.hideObservers (step s) = mapNext State.hideObservers (step s')

/-- 10 section 5 (R28): no instruction reads CMPF, and a step that changes it executes an `eq`. -/
def Obligations.ComparisonFlagIsReadByNothing : Prop :=
  (∀ s s' : State, s.hideCmpf = s'.hideCmpf →
    mapNext State.hideCmpf (step s) = mapNext State.hideCmpf (step s')) ∧
  (∀ s t : State, step s = .next t → t.cmpf ≠ s.cmpf →
    ∃ sl a b, s.SlotAtPc sl ∧ decode sl = .ok (.eq a b))

/-- 10 section 6 (R30): RUN is bit 0, ERR is bits 3:1, bits 15:4 read as 0; ERR is 0 whenever RUN = 1, the codes are those of the table and
6 and 7 never occur; a step changes ERR only as the VM enters Halted. -/
def Obligations.StatusWordHasItsFields : Prop :=
  (∀ s : State,
    (readStatus s).toNat = (if s.status = .running then 1 else 0) + 2 * s.status.errCode.toNat ∧
    (s.status = .running → s.status.errCode = 0) ∧
    s.status.errCode.toNat ≤ 5 ∧
    (s.status = .halted none → s.status.errCode.toNat = 0) ∧
    (s.status = .halted (some .stackUnderflow) → s.status.errCode.toNat = 1) ∧
    (s.status = .halted (some .invalidRegister) → s.status.errCode.toNat = 2) ∧
    (s.status = .halted (some .outOfBoundsJump) → s.status.errCode.toNat = 3) ∧
    (s.status = .halted (some .invalidInstruction) → s.status.errCode.toNat = 4) ∧
    (s.status = .halted (some .stackOverflow) → s.status.errCode.toNat = 5)) ∧
  (∀ s t : State, step s = .next t → t.status.errCode ≠ s.status.errCode → t.status ≠ .running)

/-! ### The invariant -/

/-- Section 10 of 10_state.md: the state after the model's default reset meets the invariant. -/
def Obligations.ResetStateMeetsInvariant : Prop := State.reset.Inv

/-- 70 section 1 (R340, R341) and 10 (R24, R29): every accepted reset, from any state, gives a state that meets the
invariant. That STACK_CAPACITY stays and the trace starts empty are the model's choices (log entries 1 and 4). -/
def Obligations.AcceptedResetMeetsInvariant : Prop :=
  ∀ (buffer : List Byte) (initRegs : Vector Word 16) (mode : Mode) (s t : State),
    hostReset buffer initRegs mode s = .next t → t.Inv

/-- 10 sections 2, 4 and 6 (R24, R27, R29) and 60 (R302, R320, R322): every step keeps the invariant: pc aligned and within the
buffer, the buffer canonical and LEN bytes long, the stack within its bound, the counters in balance, the trace as long as
the counters say. STACK_CAPACITY and the trace as State fields are the model's form (log entries 1 and 4). -/
def Obligations.StepKeepsInvariant : Prop :=
  ∀ s t : State, s.Inv → step s = .next t → t.Inv

/-- From 41 section 2 (R162 to R166) and 93 section 1, by which no step of a Running VM is stuck: it has a next state, and is
never a fault or a refusal. -/
def Obligations.RunningStepAnswers : Prop :=
  ∀ s : State, s.Inv → s.status = .running → ∃ t, step s = .next t

/-- 60 section 6 (R321, R324): a run of any length after an accepted reset ends in a state, never in a fault or a refusal,
and that state meets the invariant. A run of at most `n` steps is the model's form (log entry 13). -/
def Obligations.RunAfterResetNeverFaults : Prop :=
  ∀ (buffer : List Byte) (initRegs : Vector Word 16) (mode : Mode) (s t : State) (n : Nat),
    hostReset buffer initRegs mode s = .next t → ∃ u, run n t = .next u ∧ u.Inv

/-! ### Operands (spec/41_fetch_decode_execute.md section 3) -/

/-- R170: the value of a register, an immediate and a Pop, and what each leaves of the stack. -/
def Obligations.SourceOperandValues : Prop :=
  ∀ s : State,
    (∀ i, evalSource (.reg i) s = some (s.readReg i, s.stack)) ∧
    (∀ v, evalSource (.imm v) s = some (v, s.stack)) ∧
    (∀ top rest, s.stack = top :: rest → evalSource .pop s = some (top, rest))

/-- 41 section 3 (R171): A is evaluated first, then B; both Pop give A the top and B the element below it; the sources fail exactly where
there are more Pop sources than elements, and otherwise as many elements are removed as there are Pop sources. -/
def Obligations.SourcesAreEvaluatedAFirst : Prop :=
  ∀ (a b : Operand) (s : State),
    (evalSources a b s = none ↔ s.stack.length < popCount [a, b]) ∧
    (∀ va vb st, evalSources a b s = some (va, vb, st) →
      st = s.stack.drop (popCount [a, b]) ∧
      (∃ mid, evalSource a s = some (va, mid) ∧ evalSource b { s with stack := mid } = some (vb, st))) ∧
    (∀ p q rest, a = .pop → b = .pop → s.stack = p :: q :: rest → evalSources a b s = some (p, q, rest))

/-! ### The instructions -/

/-- R200: `mov` copies its source, a register, an immediate or a Pop, into the destination. -/
def Obligations.MovCopiesItsSource : Prop :=
  ∀ (rd : RegIdx) (a : Operand) (s : State),
    (∀ v st, evalSource a s = some (v, st) →
      ∃ t, exec (.mov rd a) s = .next t ∧ WritesReg rd v s t ∧ t.pc = s.pc + 4#16 ∧ t.stack = st ∧ t.cmpf = s.cmpf ∧
        t.status = s.status ∧ KeepsProgram s t ∧ CountsAs (.mov rd a) s t) ∧
    (s.stack.length < popCount [a] → exec (.mov rd a) s = .next (ErrorState .stackUnderflow s)) ∧
    (∀ sl, decode sl = .ok (.mov rd a) → sl.b0 ∈ legalB0 .mov)

/-- R210: `add` writes the wrapped sum of its sources. -/
def Obligations.AddWritesTheWrappedSum : Prop :=
  ∀ (rd : RegIdx) (a b : Operand) (s : State),
    (∀ va vb st, evalSources a b s = some (va, vb, st) →
      ∃ t, exec (.add rd a b) s = .next t ∧ WritesReg rd (w16 (va.toInt + vb.toInt)) s t ∧ t.pc = s.pc + 4#16 ∧
        t.stack = st ∧ t.cmpf = s.cmpf ∧ t.status = s.status ∧ KeepsProgram s t ∧ CountsAs (.add rd a b) s t) ∧
    (s.stack.length < popCount [a, b] → exec (.add rd a b) s = .next (ErrorState .stackUnderflow s)) ∧
    (∀ sl, decode sl = .ok (.add rd a b) → sl.b0 ∈ legalB0 .add)

/-- R211: `sub` writes the wrapped difference A minus B. -/
def Obligations.SubWritesTheWrappedDifference : Prop :=
  ∀ (rd : RegIdx) (a b : Operand) (s : State),
    (∀ va vb st, evalSources a b s = some (va, vb, st) →
      ∃ t, exec (.sub rd a b) s = .next t ∧ WritesReg rd (w16 (va.toInt - vb.toInt)) s t ∧ t.pc = s.pc + 4#16 ∧
        t.stack = st ∧ t.cmpf = s.cmpf ∧ t.status = s.status ∧ KeepsProgram s t ∧ CountsAs (.sub rd a b) s t) ∧
    (s.stack.length < popCount [a, b] → exec (.sub rd a b) s = .next (ErrorState .stackUnderflow s)) ∧
    (∀ sl, decode sl = .ok (.sub rd a b) → sl.b0 ∈ legalB0 .sub)

/-- R220 and R223: `lt` writes 1 if A is less than B as signed integers, else 0. -/
def Obligations.LtComparesSigned : Prop :=
  ∀ (rd : RegIdx) (a b : Operand) (s : State),
    (∀ va vb st, evalSources a b s = some (va, vb, st) →
      ∃ t, exec (.lt rd a b) s = .next t ∧ WritesReg rd (if va.toInt < vb.toInt then 1 else 0) s t ∧
        t.pc = s.pc + 4#16 ∧ t.stack = st ∧ t.cmpf = s.cmpf ∧ t.status = s.status ∧ KeepsProgram s t ∧
        CountsAs (.lt rd a b) s t) ∧
    (s.stack.length < popCount [a, b] → exec (.lt rd a b) s = .next (ErrorState .stackUnderflow s)) ∧
    (∀ sl, decode sl = .ok (.lt rd a b) → sl.b0 ∈ legalB0 .lt)

/-- R221 and R223: `gt` writes 1 if A is greater than B as signed integers, else 0. -/
def Obligations.GtComparesSigned : Prop :=
  ∀ (rd : RegIdx) (a b : Operand) (s : State),
    (∀ va vb st, evalSources a b s = some (va, vb, st) →
      ∃ t, exec (.gt rd a b) s = .next t ∧ WritesReg rd (if va.toInt > vb.toInt then 1 else 0) s t ∧
        t.pc = s.pc + 4#16 ∧ t.stack = st ∧ t.cmpf = s.cmpf ∧ t.status = s.status ∧ KeepsProgram s t ∧
        CountsAs (.gt rd a b) s t) ∧
    (s.stack.length < popCount [a, b] → exec (.gt rd a b) s = .next (ErrorState .stackUnderflow s)) ∧
    (∀ sl, decode sl = .ok (.gt rd a b) → sl.b0 ∈ legalB0 .gt)

/-- R222 and R223: `lteq` writes 1 if A is less than or equal to B as signed integers, else 0. -/
def Obligations.LteqComparesSigned : Prop :=
  ∀ (rd : RegIdx) (a b : Operand) (s : State),
    (∀ va vb st, evalSources a b s = some (va, vb, st) →
      ∃ t, exec (.lteq rd a b) s = .next t ∧ WritesReg rd (if va.toInt ≤ vb.toInt then 1 else 0) s t ∧
        t.pc = s.pc + 4#16 ∧ t.stack = st ∧ t.cmpf = s.cmpf ∧ t.status = s.status ∧ KeepsProgram s t ∧
        CountsAs (.lteq rd a b) s t) ∧
    (s.stack.length < popCount [a, b] → exec (.lteq rd a b) s = .next (ErrorState .stackUnderflow s)) ∧
    (∀ sl, decode sl = .ok (.lteq rd a b) → sl.b0 ∈ legalB0 .lteq)

/-- R226: `eq` sets CMPF to whether its sources are the same pattern, and writes no register. -/
def Obligations.EqWritesOnlyTheFlag : Prop :=
  ∀ (a b : Operand) (s : State),
    (∀ va vb st, evalSources a b s = some (va, vb, st) →
      ∃ t, exec (.eq a b) s = .next t ∧ (t.cmpf = true ↔ va = vb) ∧ KeepsRegs s t ∧ t.pc = s.pc + 4#16 ∧
        t.stack = st ∧ t.status = s.status ∧ KeepsProgram s t ∧ CountsAs (.eq a b) s t) ∧
    (s.stack.length < popCount [a, b] → exec (.eq a b) s = .next (ErrorState .stackUnderflow s)) ∧
    (∀ sl, decode sl = .ok (.eq a b) → sl.b0 ∈ legalB0 .eq)

/-- R241: `jmpt` transfers to its target where its condition is non-zero, and advances where it is zero, whatever the
target; a taken jump to a target that is not valid raises OutOfBoundsJumpError. -/
def Obligations.JmptJumpsOnNonZero : Prop :=
  ∀ (c u : Operand) (s : State),
    (∀ vc vu st, evalSources c u s = some (vc, vu, st) → (vc ≠ 0#16 → vu.toNat < s.len ∧ vu.toNat % 4 = 0) →
      ∃ t, exec (.jmpt c u) s = .next t ∧ t.pc = (if vc = 0#16 then s.pc + 4#16 else vu) ∧ KeepsRegs s t ∧ t.stack = st ∧
        t.cmpf = s.cmpf ∧ t.status = s.status ∧ KeepsProgram s t ∧ CountsAs (.jmpt c u) s t) ∧
    (∀ vc vu st, evalSources c u s = some (vc, vu, st) → vc ≠ 0#16 → ¬ (vu.toNat < s.len ∧ vu.toNat % 4 = 0) →
      exec (.jmpt c u) s = .next (ErrorState .outOfBoundsJump s)) ∧
    (s.stack.length < popCount [c, u] → exec (.jmpt c u) s = .next (ErrorState .stackUnderflow s)) ∧
    (∀ sl, decode sl = .ok (.jmpt c u) → sl.b0 ∈ legalB0 .jmpt)

/-- R242: `jmpf` transfers to its target where its condition is zero, and advances where it is not, whatever the target. -/
def Obligations.JmpfJumpsOnZero : Prop :=
  ∀ (c u : Operand) (s : State),
    (∀ vc vu st, evalSources c u s = some (vc, vu, st) → (vc = 0#16 → vu.toNat < s.len ∧ vu.toNat % 4 = 0) →
      ∃ t, exec (.jmpf c u) s = .next t ∧ t.pc = (if vc = 0#16 then vu else s.pc + 4#16) ∧ KeepsRegs s t ∧ t.stack = st ∧
        t.cmpf = s.cmpf ∧ t.status = s.status ∧ KeepsProgram s t ∧ CountsAs (.jmpf c u) s t) ∧
    (∀ vc vu st, evalSources c u s = some (vc, vu, st) → vc = 0#16 → ¬ (vu.toNat < s.len ∧ vu.toNat % 4 = 0) →
      exec (.jmpf c u) s = .next (ErrorState .outOfBoundsJump s)) ∧
    (s.stack.length < popCount [c, u] → exec (.jmpf c u) s = .next (ErrorState .stackUnderflow s)) ∧
    (∀ sl, decode sl = .ok (.jmpf c u) → sl.b0 ∈ legalB0 .jmpf)

/-- R244: `call` writes pc + 4 into r15 and transfers to its target, read before r15 is written; a target that is not valid
raises OutOfBoundsJumpError and r15 is not written. -/
def Obligations.CallLinksAndJumps : Prop :=
  ∀ (u : Operand) (s : State),
    (∀ vu st, evalSource u s = some (vu, st) → vu.toNat < s.len → vu.toNat % 4 = 0 →
      ∃ t, exec (.call u) s = .next t ∧ t.pc = vu ∧ WritesReg 15 (s.pc + 4#16) s t ∧ t.stack = st ∧ t.cmpf = s.cmpf ∧
        t.status = s.status ∧ KeepsProgram s t ∧ CountsAs (.call u) s t) ∧
    (∀ vu st, evalSource u s = some (vu, st) → ¬ (vu.toNat < s.len ∧ vu.toNat % 4 = 0) →
      exec (.call u) s = .next (ErrorState .outOfBoundsJump s)) ∧
    (s.stack.length < popCount [u] → exec (.call u) s = .next (ErrorState .stackUnderflow s)) ∧
    (∀ sl, decode sl = .ok (.call u) → sl.b0 ∈ legalB0 .call)

/-- R245: `ret` transfers to the address in r15, which it does not change, and leaves the stack alone. -/
def Obligations.RetJumpsToTheLink : Prop :=
  ∀ s : State,
    ((s.readReg 15).toNat < s.len → (s.readReg 15).toNat % 4 = 0 →
      ∃ t, exec .ret s = .next t ∧ t.pc = s.readReg 15 ∧ KeepsRegs s t ∧ t.stack = s.stack ∧ t.cmpf = s.cmpf ∧
        t.status = s.status ∧ KeepsProgram s t ∧ CountsAs .ret s t) ∧
    (¬ ((s.readReg 15).toNat < s.len ∧ (s.readReg 15).toNat % 4 = 0) →
      exec .ret s = .next (ErrorState .outOfBoundsJump s)) ∧
    (∀ sl, decode sl = .ok .ret → sl.b0 ∈ legalB0 .ret)

/-- R260: `push` appends its value, evaluated first, and raises StackOverflowError where a finite stack is then full. -/
def Obligations.PushAppendsItsValue : Prop :=
  ∀ (v : Operand) (s : State),
    (∀ va st, evalSource v s = some (va, st) → (∀ n, s.stackCapacity = some n → st.length < n) →
      ∃ t, exec (.push v) s = .next t ∧ t.stack = va :: st ∧ t.pc = s.pc + 4#16 ∧ KeepsRegs s t ∧ t.cmpf = s.cmpf ∧
        t.status = s.status ∧ KeepsProgram s t ∧ CountsAs (.push v) s t) ∧
    (∀ va st n, evalSource v s = some (va, st) → s.stackCapacity = some n → n ≤ st.length →
      exec (.push v) s = .next (ErrorState .stackOverflow s)) ∧
    (s.stack.length < popCount [v] → exec (.push v) s = .next (ErrorState .stackUnderflow s)) ∧
    (∀ sl, decode sl = .ok (.push v) → sl.b0 ∈ legalB0 .push)

/-- R261: `pop` removes the top element and discards it, and raises StackUnderflowError on an empty stack. -/
def Obligations.PopDiscardsTheTop : Prop :=
  ∀ s : State,
    (∀ top rest, s.stack = top :: rest →
      ∃ t, exec .pop s = .next t ∧ t.stack = rest ∧ t.pc = s.pc + 4#16 ∧ KeepsRegs s t ∧ t.cmpf = s.cmpf ∧
        t.status = s.status ∧ KeepsProgram s t ∧ CountsAs .pop s t) ∧
    (s.stack = [] → exec .pop s = .next (ErrorState .stackUnderflow s)) ∧
    (∀ sl, decode sl = .ok .pop → sl.b0 ∈ legalB0 .pop)

/-- R270: `nop` does nothing but advance pc. -/
def Obligations.NopOnlyAdvances : Prop :=
  ∀ s : State,
    (∃ t, exec .nop s = .next t ∧ t.pc = s.pc + 4#16 ∧ KeepsRegs s t ∧ t.stack = s.stack ∧ t.cmpf = s.cmpf ∧
      t.status = s.status ∧ KeepsProgram s t ∧ CountsAs .nop s t) ∧
    (∀ sl, decode sl = .ok .nop → sl.b0 ∈ legalB0 .nop)

/-- R271: `stop` advances pc and halts the VM without error. -/
def Obligations.StopHaltsWithoutError : Prop :=
  ∀ s : State,
    (∃ t, exec .stop s = .next t ∧ t.status = .halted none ∧ t.pc = s.pc + 4#16 ∧ KeepsRegs s t ∧ t.stack = s.stack ∧
      t.cmpf = s.cmpf ∧ KeepsProgram s t ∧ CountsAs .stop s t) ∧
    (∀ sl, decode sl = .ok .stop → sl.b0 ∈ legalB0 .stop)

/-- R240: every transfer checks its target: a valid one (below LEN and a multiple of 4) becomes pc, and any other raises
OutOfBoundsJumpError and commits nothing. The offset LEN itself is not valid. -/
def Obligations.TransferTargetsAreChecked : Prop :=
  ∀ (s : State) (i : Instr) (v : Word), Transfers s i v →
    (v.toNat < s.len → v.toNat % 4 = 0 → ∃ t, exec i s = .next t ∧ t.pc = v ∧ t.status = s.status) ∧
    (s.len ≤ v.toNat ∨ v.toNat % 4 ≠ 0 → exec i s = .next (ErrorState .outOfBoundsJump s))

/-- 43, Integer arithmetic laws (R212): the wrapped sum and difference are the same whether the operands are read as signed
or as unsigned. -/
def Obligations.WrappedResultsIgnoreSignedness : Prop :=
  ∀ a b : Word,
    w16 (s16 a + s16 b) = w16 ((u16 a : Int) + (u16 b : Int)) ∧
    w16 (s16 a - s16 b) = w16 ((u16 a : Int) - (u16 b : Int))

/-- R262: after `push v1; push v2; pop; mov rX pop` the register rX holds v1 and the stack is as it was; and after any
completed push a Pop operand, or the `pop` instruction, removes the element pushed. -/
def Obligations.StackIsLastInFirstOut : Prop :=
  (∀ (a1 a2 : Operand) (rX : RegIdx) (s : State) (v1 : Word),
    a1.isPop = false → a2.isPop = false → evalSource a1 s = some (v1, s.stack) →
    (∀ n, s.stackCapacity = some n → s.stack.length + 2 ≤ n) →
    ∃ s1 s2 s3 s4, exec (.push a1) s = .next s1 ∧ exec (.push a2) s1 = .next s2 ∧ exec .pop s2 = .next s3 ∧
      exec (.mov rX .pop) s3 = .next s4 ∧ s4.readReg rX = v1 ∧ s4.stack = s.stack) ∧
  (∀ (a : Operand) (s t : State) (v : Word) (st : List Word), evalSource a s = some (v, st) →
    exec (.push a) s = .next t → (∀ e, t.status ≠ .halted (some e)) →
    evalSource .pop t = some (v, st) ∧ ∃ u, exec .pop t = .next u ∧ u.stack = st)

/-! ### Reset and the host interface (spec/70_reset_and_hazards.md, spec/60_exceptions.md section 6) -/

/-- 70 section 1 (R340, R341) and 10 section 10 (R40): reset sets the buffer, LEN, the registers, pc, IR, the stack, CMPF, STATUS, MODE and the counters, whatever
the state before; a buffer whose length is not a multiple of 4, or is above 65532, is refused. -/
def Obligations.ResetSetsTheState : Prop :=
  ∀ (buffer : List Byte) (initRegs : Vector Word 16) (mode : Mode) (s : State),
    (buffer.length % 4 = 0 → buffer.length ≤ 65532 →
      ∃ t, hostReset buffer initRegs mode s = .next t ∧ (∀ a, Memory.read t.mem a = buffer[a]?) ∧
        t.len = buffer.length ∧ (∀ j : RegIdx, t.readReg j = initRegs[j]) ∧ t.pc = 0 ∧ t.ir = 0 ∧ t.stack = [] ∧
        t.cmpf = false ∧ t.status = .running ∧ readStatus t = 1 ∧ t.mode = mode ∧ t.instret = 0 ∧
        ∀ o, t.opCount o = 0) ∧
    (buffer.length % 4 ≠ 0 ∨ 65532 < buffer.length →
      hostReset buffer initRegs mode s = .refused (.bufferRefused buffer.length))

/-- 60 section 6 (R321) and 10 section 6 (R31): what the host reads of a register index, of the counters and of the trace, and
the MODE word's bits (R31's places, log entry 3). -/
def Obligations.HostReadoutsAreGated : Prop :=
  ∀ s : State,
    (∀ j : RegIdx, readRegister (j.val : Int) s = .ok (s.readReg j)) ∧
    (∀ k : Int, (k < 0 ∨ 16 ≤ k) → readRegister k s = .error .invalidRegister) ∧
    (readStats s = if s.mode.stats then some (s.instret, s.opcount) else none) ∧
    (readTrace s = if s.mode.debug then some s.trace else none) ∧
    s.mode.word.toNat = (if s.mode.debug then 1 else 0) + (if s.mode.stats then 2 else 0)

/-! ### The assembler (spec/40_assembler.md) -/

/-- R132: an accepted source with N INSTRUCTION lines gives a buffer of 4N bytes, and every declared label's offset is four
times the number of INSTRUCTION lines before it: the offset of the next one, or 4N if none follows. -/
def Obligations.AssembledLengthAndLabelOffsets : Prop :=
  ∀ (source buffer : List Byte), assemble source = .ok buffer →
    ∃ text ly, utf8Decode source = some text ∧ pass1 1 Layout.start (sourceLines text) = .ok ly ∧
      buffer.length = 4 * instrLines (sourceLines text) ∧
      ∀ before name, DeclaresAfter (sourceLines text) before name →
        lookupLabel ly.sym name = some (4 * instrLines before)

/-- Sections 1 and 4 (R110, R120, R130): the buffer of an accepted source is its instructions in source order, one slot each,
and slot `k` decodes to instruction `k`. -/
def Obligations.AssembledSlotsDecodeToTheSource : Prop :=
  ∀ (source buffer : List Byte), assemble source = .ok buffer →
    ∃ text is, utf8Decode source = some text ∧ assembleLines (sourceLines text) = .ok is ∧
      buffer.length = 4 * is.length ∧
      ∀ k i, is[k]? = some i →
        ∃ sl, decode sl = .ok i ∧ buffer[4 * k]? = some sl.b0 ∧ buffer[4 * k + 1]? = some sl.b1 ∧
          buffer[4 * k + 2]? = some sl.b2 ∧ buffer[4 * k + 3]? = some sl.b3

/-- R133: the empty source, and a source whose lines are all EMPTY or LABEL and that pass 1 accepts, give the empty buffer, on
which the VM halts at its first step. -/
def Obligations.EmptySourceGivesEmptyBuffer : Prop :=
  assemble [] = .ok [] ∧
  (∀ source text ly, utf8Decode source = some text → (∀ m ops, LineKind.instruction m ops ∉ sourceLines text) →
    pass1 1 Layout.start (sourceLines text) = .ok ly → assemble source = .ok []) ∧
  (∀ initRegs mode s t, hostReset [] initRegs mode s = .next t → step t = .next { t with status := .halted none })

/-- R117: a source that declares one label twice fails with SyntaxError. -/
def Obligations.DuplicateLabelIsSyntaxError : Prop :=
  ∀ (source : List Byte) (text : List Char) (before before' : List LineKind) (name : Token),
    utf8Decode source = some text → before ≠ before' → DeclaresAfter (sourceLines text) before name →
    DeclaresAfter (sourceLines text) before' name →
    ∃ f r, assemble source = .error f ∧ f.error = .syntaxError r

/-- Section 4 (R123, R127): a label reference yields its offset; a source that refers to a label it never declares gives no
buffer. -/
def Obligations.UndeclaredLabelNeverAssembles : Prop :=
  (∀ (sym : List (Token × Nat)) (name : Token), isIdentifier name = true → isRegisterForm name = false →
    name ≠ "pop".toList →
    (∀ off, lookupLabel sym name = some off → classify sym name = .ok (.imm (BitVec.ofNat 16 off))) ∧
    (lookupLabel sym name = none → classify sym name = .error (.undefinedLabelError name))) ∧
  (∀ (source : List Byte) (text : List Char) (m name : Token) (ops : List Token),
    utf8Decode source = some text → LineKind.instruction m ops ∈ sourceLines text → name ∈ ops →
    isIdentifier name = true → isRegisterForm name = false → name ≠ "pop".toList →
    (∀ before, ¬ DeclaresAfter (sourceLines text) before name) →
    ∀ buffer, assemble source ≠ .ok buffer)

/-- Section 4 (R121, R122, R128, R129) and section 5 (R131): a line's first error, in this order: mnemonic, operand count,
operands left to right, destination, encodability; and a line with none gives the instruction with its operands. -/
def Obligations.LineErrorsComeInOrder : Prop :=
  ∀ (sym : List (Token × Nat)) (m : Token) (ops : List Token),
    ((∀ o, m ≠ (mnemonicOf o).toList) → assembleLine sym m ops = .error (.syntaxError .unrecognizedMnemonic)) ∧
    (∀ o : Op, m = (mnemonicOf o).toList →
      (ops.length ≠ (if o.hasDst then 1 else 0) + o.nSrc →
        assembleLine sym m ops = .error (.syntaxError .operandCount)) ∧
      (ops.length = (if o.hasDst then 1 else 0) + o.nSrc →
        (∀ e, classifyAll sym ops = .error e → assembleLine sym m ops = .error e) ∧
        (∀ os, classifyAll sym ops = .ok os → o.hasDst = true → (∀ r rest, os ≠ .reg r :: rest) →
          assembleLine sym m ops = .error (.syntaxError .destinationNotRegister)) ∧
        (∀ i : Instr, i.op = o →
          classifyAll sym ops =
            .ok (i.dst.toList.map Operand.reg ++ i.sources.1.toList ++ i.sources.2.toList) →
          assembleLine sym m ops = if i.wf then .ok i else .error (.syntaxError .notEncodable))))

/-- R118: a source of more than 65532 bytes of slots fails with SyntaxError, so in an accepted one every label offset is at most
65532; and a reset accepts every assembled buffer (R341). -/
def Obligations.LargeProgramsAreRefused : Prop :=
  (∀ (source : List Byte) (text : List Char) (ly : Layout), utf8Decode source = some text →
    pass1 1 Layout.start (sourceLines text) = .ok ly →
    (65532 < ly.off → ∃ f, assemble source = .error f ∧ f.error = .syntaxError .programTooLarge) ∧
    (∀ buffer, assemble source = .ok buffer → ∀ name off, lookupLabel ly.sym name = some off → off ≤ 65532)) ∧
  (∀ (source buffer : List Byte) (initRegs : Vector Word 16) (mode : Mode) (s : State),
    assemble source = .ok buffer → ∃ t, hostReset buffer initRegs mode s = .next t)

/-- From R24, R77, R130 and R340: a program that the assembler made never raises InvalidInstructionError, from reset with any
registers and mode, in any number of steps. -/
def Obligations.AssembledProgramsAlwaysDecode : Prop :=
  ∀ (source buffer : List Byte) (initRegs : Vector Word 16) (mode : Mode) (s0 s t : State),
    assemble source = .ok buffer → hostReset buffer initRegs mode s0 = .next s → Steps s t →
    t.status ≠ .halted (some .invalidInstruction)

/-- From R24, R51, R77 and R80, the step behind the statement above: where every slot of the buffer decodes, a step neither halts
with InvalidInstructionError nor leaves such states. -/
def Obligations.StepKeepsDecodablePrograms : Prop :=
  ∀ s t : State, s.Inv → s.AllSlotsDecode → step s = .next t →
    t.Inv ∧ t.AllSlotsDecode ∧ t.status ≠ .halted (some .invalidInstruction)
end

