-- ==== Sys2Proof/Laws/State.lean ====
section
/-! SUPPORT. One lemma per field per update of the state, so that no proof unfolds a record update. -/

namespace Sys2Proof.Machine

/-! ### `raiseError` -/

@[simp] theorem raiseError_regs (e : ExecutionError) (s : State) : (raiseError e s).regs = s.regs := rfl
@[simp] theorem raiseError_pc (e : ExecutionError) (s : State) : (raiseError e s).pc = s.pc := rfl
@[simp] theorem raiseError_ir (e : ExecutionError) (s : State) : (raiseError e s).ir = s.ir := rfl
@[simp] theorem raiseError_stack (e : ExecutionError) (s : State) : (raiseError e s).stack = s.stack := rfl
@[simp] theorem raiseError_stackCapacity (e : ExecutionError) (s : State) : (raiseError e s).stackCapacity = s.stackCapacity := rfl
@[simp] theorem raiseError_cmpf (e : ExecutionError) (s : State) : (raiseError e s).cmpf = s.cmpf := rfl
@[simp] theorem raiseError_mem (e : ExecutionError) (s : State) : (raiseError e s).mem = s.mem := rfl
@[simp] theorem raiseError_len (e : ExecutionError) (s : State) : (raiseError e s).len = s.len := rfl
@[simp] theorem raiseError_status (e : ExecutionError) (s : State) : (raiseError e s).status = .halted (some e) := rfl
@[simp] theorem raiseError_mode (e : ExecutionError) (s : State) : (raiseError e s).mode = s.mode := rfl
@[simp] theorem raiseError_instret (e : ExecutionError) (s : State) : (raiseError e s).instret = s.instret := rfl
@[simp] theorem raiseError_opcount (e : ExecutionError) (s : State) : (raiseError e s).opcount = s.opcount := rfl
@[simp] theorem raiseError_trace (e : ExecutionError) (s : State) : (raiseError e s).trace = s.trace := rfl

/-! ### `haltAtEnd` -/

@[simp] theorem haltAtEnd_regs (s : State) : (haltAtEnd s).regs = s.regs := rfl
@[simp] theorem haltAtEnd_pc (s : State) : (haltAtEnd s).pc = s.pc := rfl
@[simp] theorem haltAtEnd_ir (s : State) : (haltAtEnd s).ir = s.ir := rfl
@[simp] theorem haltAtEnd_stack (s : State) : (haltAtEnd s).stack = s.stack := rfl
@[simp] theorem haltAtEnd_stackCapacity (s : State) : (haltAtEnd s).stackCapacity = s.stackCapacity := rfl
@[simp] theorem haltAtEnd_cmpf (s : State) : (haltAtEnd s).cmpf = s.cmpf := rfl
@[simp] theorem haltAtEnd_mem (s : State) : (haltAtEnd s).mem = s.mem := rfl
@[simp] theorem haltAtEnd_len (s : State) : (haltAtEnd s).len = s.len := rfl
@[simp] theorem haltAtEnd_status (s : State) : (haltAtEnd s).status = .halted none := rfl
@[simp] theorem haltAtEnd_mode (s : State) : (haltAtEnd s).mode = s.mode := rfl
@[simp] theorem haltAtEnd_instret (s : State) : (haltAtEnd s).instret = s.instret := rfl
@[simp] theorem haltAtEnd_opcount (s : State) : (haltAtEnd s).opcount = s.opcount := rfl
@[simp] theorem haltAtEnd_trace (s : State) : (haltAtEnd s).trace = s.trace := rfl

/-! ### `withIr` -/

@[simp] theorem withIr_regs (s : State) (sl : Slot) : (s.withIr sl).regs = s.regs := rfl
@[simp] theorem withIr_pc (s : State) (sl : Slot) : (s.withIr sl).pc = s.pc := rfl
@[simp] theorem withIr_ir (s : State) (sl : Slot) : (s.withIr sl).ir = sl.word := rfl
@[simp] theorem withIr_stack (s : State) (sl : Slot) : (s.withIr sl).stack = s.stack := rfl
@[simp] theorem withIr_stackCapacity (s : State) (sl : Slot) : (s.withIr sl).stackCapacity = s.stackCapacity := rfl
@[simp] theorem withIr_cmpf (s : State) (sl : Slot) : (s.withIr sl).cmpf = s.cmpf := rfl
@[simp] theorem withIr_mem (s : State) (sl : Slot) : (s.withIr sl).mem = s.mem := rfl
@[simp] theorem withIr_len (s : State) (sl : Slot) : (s.withIr sl).len = s.len := rfl
@[simp] theorem withIr_status (s : State) (sl : Slot) : (s.withIr sl).status = s.status := rfl
@[simp] theorem withIr_mode (s : State) (sl : Slot) : (s.withIr sl).mode = s.mode := rfl
@[simp] theorem withIr_instret (s : State) (sl : Slot) : (s.withIr sl).instret = s.instret := rfl
@[simp] theorem withIr_opcount (s : State) (sl : Slot) : (s.withIr sl).opcount = s.opcount := rfl
@[simp] theorem withIr_trace (s : State) (sl : Slot) : (s.withIr sl).trace = s.trace := rfl

/-! ### `complete` -/

@[simp] theorem complete_regs (i : Instr) (w : Writes) (s : State) : (complete i w s).regs = applyReg s.regs w.reg := rfl
@[simp] theorem complete_pc (i : Instr) (w : Writes) (s : State) : (complete i w s).pc = w.nextPc := rfl
@[simp] theorem complete_ir (i : Instr) (w : Writes) (s : State) : (complete i w s).ir = s.ir := rfl
@[simp] theorem complete_stack (i : Instr) (w : Writes) (s : State) : (complete i w s).stack = w.stack := rfl
@[simp] theorem complete_stackCapacity (i : Instr) (w : Writes) (s : State) : (complete i w s).stackCapacity = s.stackCapacity := rfl
@[simp] theorem complete_cmpf (i : Instr) (w : Writes) (s : State) : (complete i w s).cmpf = w.cmpf.getD s.cmpf := rfl
@[simp] theorem complete_mem (i : Instr) (w : Writes) (s : State) : (complete i w s).mem = s.mem := rfl
@[simp] theorem complete_len (i : Instr) (w : Writes) (s : State) : (complete i w s).len = s.len := rfl
@[simp] theorem complete_status (i : Instr) (w : Writes) (s : State) :
    (complete i w s).status = match w.halt with | true => .halted none | false => s.status := rfl
@[simp] theorem complete_mode (i : Instr) (w : Writes) (s : State) : (complete i w s).mode = s.mode := rfl
@[simp] theorem complete_instret (i : Instr) (w : Writes) (s : State) : (complete i w s).instret = s.instret + 1#64 := rfl
@[simp] theorem complete_opcount (i : Instr) (w : Writes) (s : State) : (complete i w s).opcount = bumpOp s.opcount i.op := rfl
@[simp] theorem complete_trace (i : Instr) (w : Writes) (s : State) :
    (complete i w s).trace = emit s.mode.debug s.trace { pc := s.pc, instr := i, regs := applyReg s.regs w.reg } := rfl

end Sys2Proof.Machine
end

