-- ==== Sys2Proof/Laws/PerInstr.lean ====
section
/-! SUPPORT. The per-instruction families of LAWS.json. `BuildsItself`: an instruction is rebuilt from its operation, its
destination and its sources, so its shape is the one R71 gives its operation. `ShapeMatches`: it has a destination and
as many sources as `hasDst` and `nSrc` say (R72). -/

namespace Sys2Proof.Laws.BuildsItself

def Statement (i : Instr) : Prop := Instr.build i.op i.dst i.sources.1 i.sources.2 = some i

theorem mov (rd : RegIdx) (s : Operand) : Statement (.mov rd s) := rfl
theorem add (rd : RegIdx) (a b : Operand) : Statement (.add rd a b) := rfl
theorem sub (rd : RegIdx) (a b : Operand) : Statement (.sub rd a b) := rfl
theorem lt (rd : RegIdx) (a b : Operand) : Statement (.lt rd a b) := rfl
theorem gt (rd : RegIdx) (a b : Operand) : Statement (.gt rd a b) := rfl
theorem lteq (rd : RegIdx) (a b : Operand) : Statement (.lteq rd a b) := rfl
theorem eq (a b : Operand) : Statement (.eq a b) := rfl
theorem jmpt (c t : Operand) : Statement (.jmpt c t) := rfl
theorem jmpf (c t : Operand) : Statement (.jmpf c t) := rfl
theorem call (t : Operand) : Statement (.call t) := rfl
theorem ret : Statement .ret := rfl
theorem push (v : Operand) : Statement (.push v) := rfl
theorem pop : Statement .pop := rfl
theorem nop : Statement .nop := rfl
theorem stop : Statement .stop := rfl

/-- Every instruction is rebuilt from its parts. -/
theorem all (i : Instr) : Statement i := by cases i <;> rfl

end Sys2Proof.Laws.BuildsItself

namespace Sys2Proof.Laws.ShapeMatches

def Statement (i : Instr) : Prop :=
  i.dst.isSome = i.op.hasDst ∧ i.sources.1.toList.length + i.sources.2.toList.length = i.op.nSrc

theorem mov (rd : RegIdx) (s : Operand) : Statement (.mov rd s) := ⟨rfl, rfl⟩
theorem add (rd : RegIdx) (a b : Operand) : Statement (.add rd a b) := ⟨rfl, rfl⟩
theorem sub (rd : RegIdx) (a b : Operand) : Statement (.sub rd a b) := ⟨rfl, rfl⟩
theorem lt (rd : RegIdx) (a b : Operand) : Statement (.lt rd a b) := ⟨rfl, rfl⟩
theorem gt (rd : RegIdx) (a b : Operand) : Statement (.gt rd a b) := ⟨rfl, rfl⟩
theorem lteq (rd : RegIdx) (a b : Operand) : Statement (.lteq rd a b) := ⟨rfl, rfl⟩
theorem eq (a b : Operand) : Statement (.eq a b) := ⟨rfl, rfl⟩
theorem jmpt (c t : Operand) : Statement (.jmpt c t) := ⟨rfl, rfl⟩
theorem jmpf (c t : Operand) : Statement (.jmpf c t) := ⟨rfl, rfl⟩
theorem call (t : Operand) : Statement (.call t) := ⟨rfl, rfl⟩
theorem ret : Statement .ret := ⟨rfl, rfl⟩
theorem push (v : Operand) : Statement (.push v) := ⟨rfl, rfl⟩
theorem pop : Statement .pop := ⟨rfl, rfl⟩
theorem nop : Statement .nop := ⟨rfl, rfl⟩
theorem stop : Statement .stop := ⟨rfl, rfl⟩

/-- Every instruction has its operation's shape. -/
theorem all (i : Instr) : Statement i := by cases i <;> exact ⟨rfl, rfl⟩

end Sys2Proof.Laws.ShapeMatches
end

