-- ==== Sys2Proof/Laws/Decode.lean ====
section
/-! SUPPORT. The fields of a slot and of an encoded instruction, and what the decoder answers, said once. -/

namespace Sys2Proof

/-! ### Codes -/

@[simp] theorem Op.ofCode_code (o : Op) : Op.ofCode o.code = some o := by cases o <;> decide

theorem Op.code_of_ofCode {c : BitVec 4} {o : Op} (h : Op.ofCode c = some o) : o.code = c :=
  eq_of_beq (List.find?_some (p := fun x : Op => x.code == c) h)

@[simp] theorem Kind.ofCode_code (k : Kind) : Kind.ofCode k.code = k := by cases k <;> rfl

theorem Kind.code_ofCode : ∀ b : BitVec 2, (Kind.ofCode b).code = b := by decide

@[simp] theorem regOfField_fieldOfReg (r : RegIdx) : regOfField (fieldOfReg r) = r := rfl

@[simp] theorem fieldOfReg_regOfField (f : BitVec 4) : fieldOfReg (regOfField f) = f := rfl

/-! ### The fields of an opcode byte and of an index byte put together -/

theorem opcodeByte_op : ∀ (a b : BitVec 2) (o : BitVec 4), (a ++ b ++ o : BitVec 8).extractLsb' 0 4 = o := by decide

theorem opcodeByte_kindB : ∀ (a b : BitVec 2) (o : BitVec 4), (a ++ b ++ o : BitVec 8).extractLsb' 4 2 = b := by decide

theorem opcodeByte_kindA : ∀ (a b : BitVec 2) (o : BitVec 4), (a ++ b ++ o : BitVec 8).extractLsb' 6 2 = a := by decide

theorem indexByte_rx : ∀ x y : BitVec 4, (x ++ y : BitVec 8).extractLsb' 4 4 = x := by decide

theorem indexByte_ry : ∀ x y : BitVec 4, (x ++ y : BitVec 8).extractLsb' 0 4 = y := by decide

/-- An opcode byte is its three fields put together. -/
theorem opcodeByte_split : ∀ b : BitVec 8, (b.extractLsb' 6 2 ++ b.extractLsb' 4 2 ++ b.extractLsb' 0 4 : BitVec 8) = b := by
  decide

/-- An index byte is its two fields put together. -/
theorem indexByte_split : ∀ b : BitVec 8, (b.extractLsb' 4 4 ++ b.extractLsb' 0 4 : BitVec 8) = b := by decide

/-- The immediate field is its two bytes put together, the high byte first. -/
theorem immediate_split (v : Word) : (v.extractLsb' 8 8 ++ v.extractLsb' 0 8 : Word) = v := by
  apply BitVec.eq_of_getLsbD_eq
  intro k hk
  simp only [BitVec.getLsbD_append, BitVec.getLsbD_extractLsb']
  split
  · simp_all
  · have : 8 + (k - 8) = k := by omega
    simp_all
    omega

/-- B2 is the low byte of the immediate field (R76). -/
theorem immediate_low (b3 b2 : Byte) : (b3 ++ b2 : Word).extractLsb' 0 8 = b2 := by
  apply BitVec.eq_of_getLsbD_eq
  intro k hk
  rw [BitVec.getLsbD_extractLsb', BitVec.getLsbD_append]
  simp [hk]

/-- B3 is the high byte of the immediate field (R76). -/
theorem immediate_high (b3 b2 : Byte) : (b3 ++ b2 : Word).extractLsb' 8 8 = b3 := by
  apply BitVec.eq_of_getLsbD_eq
  intro k hk
  rw [BitVec.getLsbD_extractLsb', BitVec.getLsbD_append]
  simp [hk]

/-! ### The fields of an encoded instruction (R82) -/

@[simp] theorem encode_opField (i : Instr) : (encode i).opField = i.op.code := opcodeByte_op _ _ _

@[simp] theorem encode_kindA (i : Instr) : (encode i).kindA = Kind.ofOperand i.sources.1 := by
  simp only [Slot.kindA, encode, opcodeByte_kindA, Kind.ofCode_code]

@[simp] theorem encode_kindB (i : Instr) : (encode i).kindB = Kind.ofOperand i.sources.2 := by
  simp only [Slot.kindB, encode, opcodeByte_kindB, Kind.ofCode_code]

@[simp] theorem encode_rx (i : Instr) : (encode i).rx = i.registers[0]?.getD 0 := by
  simp only [Slot.rx, encode, indexByte_rx, regOfField_fieldOfReg]

@[simp] theorem encode_ry (i : Instr) : (encode i).ry = i.registers[1]?.getD 0 := by
  simp only [Slot.ry, encode, indexByte_ry, regOfField_fieldOfReg]

@[simp] theorem encode_immField (i : Instr) : (encode i).immField = i.immediate := immediate_split _

/-! ### What the decoder answers -/

/-- The parts of a slot as a function of its fields. -/
theorem parts_eq (s : Slot) (op : Op) :
    s.parts op =
      ((takeDst op.hasDst [s.rx, s.ry]).1,
       (takeOperand s.kindA s.immField (takeDst op.hasDst [s.rx, s.ry]).2).1,
       (takeOperand s.kindB s.immField (takeOperand s.kindA s.immField (takeDst op.hasDst [s.rx, s.ry]).2).2).1) := rfl

/-- A legal opcode byte has its operation's shape: `Instr.build` never fails on it. -/
theorem build_legal (op : Op) (ka kb : Kind) (rx ry : RegIdx) (imm : Word) (h : encodingProblem op ka kb = none) :
    ∃ i, Instr.build op (takeDst op.hasDst [rx, ry]).1 (takeOperand ka imm (takeDst op.hasDst [rx, ry]).2).1
      (takeOperand kb imm (takeOperand ka imm (takeDst op.hasDst [rx, ry]).2).2).1 = some i := by
  cases op <;> cases ka <;> cases kb <;> first | exact absurd h (by decide) | exact ⟨_, rfl⟩

theorem decode_reserved {s : Slot} (h : Op.ofCode s.opField = none) : decode s = .error .reservedOperation := by
  simp [decode, h]

theorem decode_illegal {s : Slot} {op : Op} {e : DecodeError} (ho : Op.ofCode s.opField = some op)
    (hp : encodingProblem op s.kindA s.kindB = some e) : decode s = .error e := by
  simp [decode, ho, hp]

/-- A legal slot decodes to the instruction built from its parts. -/
theorem decode_legal {s : Slot} {op : Op} (ho : Op.ofCode s.opField = some op)
    (hp : encodingProblem op s.kindA s.kindB = none) :
    ∃ i, Instr.build op (s.parts op).1 (s.parts op).2.1 (s.parts op).2.2 = some i ∧ decode s = .ok i := by
  obtain ⟨i, hi⟩ := build_legal op s.kindA s.kindB s.rx s.ry s.immField hp
  refine ⟨i, by simpa [parts_eq] using hi, ?_⟩
  simp only [decode, ho, hp, parts_eq, hi]

/-- What a slot that decodes to `i` satisfies. -/
theorem decode_ok_inv {s : Slot} {i : Instr} (h : decode s = .ok i) :
    ∃ op, Op.ofCode s.opField = some op ∧ encodingProblem op s.kindA s.kindB = none ∧
      Instr.build op (s.parts op).1 (s.parts op).2.1 (s.parts op).2.2 = some i := by
  cases ho : Op.ofCode s.opField with
  | none => rw [decode_reserved ho] at h; cases h
  | some op =>
    cases hp : encodingProblem op s.kindA s.kindB with
    | some e => rw [decode_illegal ho hp] at h; cases h
    | none =>
      obtain ⟨j, hj, hd⟩ := decode_legal ho hp
      rw [hd] at h; cases h
      exact ⟨op, rfl, hp, hj⟩

end Sys2Proof
end

