-- ==== Sys2Proof/Laws/Ops.lean ====
section
/-! SUPPORT. What the shared operations do, said once: values, the register file, the counters, the instruction buffer and
its canonical form, transfers. -/

namespace Sys2Proof.Machine

/-! ### Values -/

theorem s16_eq_toInt (v : Word) : s16 v = v.toInt := by
  unfold s16
  rw [BitVec.toInt_eq_toNat_cond]
  split <;> split <;> omega

theorem w16_s16 (v : Word) : w16 (s16 v) = v := by
  rw [s16_eq_toInt]; exact BitVec.ofInt_toInt

theorem w16_add (m n : Int) : w16 (m + n) = w16 m + w16 n := BitVec.ofInt_add m n

/-! ### The register file -/

theorem setReg_same (regs : Vector Word 16) (i : RegIdx) (v : Word) : (setReg regs i v)[i] = v := by
  simp [setReg]

@[simp] theorem setReg_same_val (regs : Vector Word 16) (i : RegIdx) (v : Word) : (setReg regs i v)[i.val] = v :=
  setReg_same regs i v

theorem setReg_other (regs : Vector Word 16) (i j : RegIdx) (v : Word) (h : j ≠ i) :
    (setReg regs i v)[j] = regs[j] := by
  have : i.val ≠ j.val := fun e => h (Fin.ext e.symm)
  simp [setReg, this]

@[simp] theorem applyReg_none (regs : Vector Word 16) : applyReg regs none = regs := rfl

@[simp] theorem applyReg_some (regs : Vector Word 16) (i : RegIdx) (v : Word) :
    applyReg regs (some (i, v)) = setReg regs i v := rfl

/-! ### The counters -/

theorem Op.index_injective {o p : Op} (h : o.index = p.index) : o = p := by
  cases o <;> cases p <;> first | rfl | exact absurd h (by decide)

theorem bumpOp_same (counts : Vector Counter 15) (op : Op) :
    (bumpOp counts op)[op.index] = counts[op.index] + 1#64 := by
  simp [bumpOp]

theorem bumpOp_other (counts : Vector Counter 15) (op o : Op) (h : o ≠ op) :
    (bumpOp counts op)[o.index] = counts[o.index] := by
  have : op.index.val ≠ o.index.val := fun e => h (Op.index_injective (Fin.ext e)).symm
  simp [bumpOp, this]

/-- One more instruction of any operation raises the total by one. -/
theorem complete_totalCount (i : Instr) (w : Writes) (s : State) :
    (complete i w s).totalCount = s.totalCount + 1#64 := by
  have key : ∀ o, (complete i w s).opCount o = s.opCount o + if o = i.op then 1#64 else 0#64 := by
    intro o
    by_cases h : o = i.op
    · subst h; simpa [State.opCount] using bumpOp_same s.opcount i.op
    · simpa [State.opCount, h] using bumpOp_other s.opcount i.op o h
  unfold State.totalCount Op.all
  simp only [List.map_cons, List.map_nil, List.sum_cons, List.sum_nil, key]
  generalize i.op = op
  cases op <;> simp <;> ac_rfl

/-! ### The commit: what a completed instruction leaves alone, counts and writes -/

theorem complete_keepsProgram (i : Instr) (w : Writes) (s : State) : KeepsProgram s (complete i w s) :=
  ⟨fun _ => rfl, rfl, rfl, rfl, rfl⟩

theorem complete_countsAs (i : Instr) (w : Writes) (s : State) : CountsAs i s (complete i w s) where
  instret := rfl
  own := bumpOp_same s.opcount i.op
  others o h := bumpOp_other s.opcount i.op o h
  traceOn h := by simp [h, emit]
  traceOff h := by simp [h, emit]

theorem complete_keepsRegs (i : Instr) {w : Writes} (s : State) (h : w.reg = none) :
    KeepsRegs s (complete i w s) := by
  intro j
  simp [State.readReg, h]

theorem complete_writesReg (i : Instr) {w : Writes} (s : State) {rd : RegIdx} {v : Word} (h : w.reg = some (rd, v)) :
    WritesReg rd v s (complete i w s) := by
  refine ⟨?_, fun j hj => ?_⟩
  · simp [State.readReg, h]
  · simpa [State.readReg, h] using setReg_other s.regs rd j v hj

/-! ### The instruction buffer -/

theorem Memory.read_lt {lo : Nat} {m : Memory} (h : Memory.risesFrom lo m = true) {a : Nat} (ha : a < lo) :
    Memory.read m a = none := by
  induction m generalizing lo with
  | nil => rfl
  | cons c rest ih =>
    obtain ⟨b, v⟩ := c
    simp only [Memory.risesFrom, Bool.and_eq_true, decide_eq_true_eq] at h
    have hne : a ≠ b := by omega
    simp only [Memory.read, if_neg hne]
    exact ih h.2 (by omega)

theorem Memory.read_write_same (m : Memory) (a : Nat) (v : Byte) : Memory.read (Memory.write m a v) a = some v := by
  induction m with
  | nil => simp [Memory.write, Memory.read]
  | cons c rest ih =>
    obtain ⟨b, w⟩ := c
    by_cases h1 : a < b
    · simp [Memory.write, Memory.read, h1]
    · by_cases h2 : a = b
      · simp [Memory.write, Memory.read, h2]
      · simpa [Memory.write, Memory.read, h1, h2] using ih

theorem Memory.read_write_other (m : Memory) {a x : Nat} (v : Byte) (h : x ≠ a) :
    Memory.read (Memory.write m a v) x = Memory.read m x := by
  induction m with
  | nil => simp [Memory.write, Memory.read, h]
  | cons c rest ih =>
    obtain ⟨b, w⟩ := c
    by_cases h1 : a < b
    · simp [Memory.write, Memory.read, h1, h]
    · by_cases h2 : a = b
      · subst h2; simp [Memory.write, Memory.read, h]
      · simp [Memory.write, Memory.read, h1, h2, ih]

theorem Memory.write_risesFrom {lo : Nat} {m : Memory} (h : Memory.risesFrom lo m = true) {a : Nat} (v : Byte)
    (ha : lo ≤ a) : Memory.risesFrom lo (Memory.write m a v) = true := by
  induction m generalizing lo with
  | nil => simp [Memory.write, Memory.risesFrom, ha]
  | cons c rest ih =>
    obtain ⟨b, w⟩ := c
    simp only [Memory.risesFrom, Bool.and_eq_true, decide_eq_true_eq] at h
    by_cases h1 : a < b
    · simp only [Memory.write, if_pos h1, Memory.risesFrom, Bool.and_eq_true, decide_eq_true_eq]
      exact ⟨ha, h1, h.2⟩
    · by_cases h2 : a = b
      · subst h2
        simp only [Memory.write, if_neg h1, if_true, Memory.risesFrom, Bool.and_eq_true, decide_eq_true_eq]
        exact ⟨ha, h.2⟩
      · simp only [Memory.write, if_neg h1, if_neg h2, Memory.risesFrom, Bool.and_eq_true, decide_eq_true_eq]
        exact ⟨h.1, ih h.2 (by omega)⟩

/-- A write keeps the canonical form. -/
theorem Memory.write_wf {m : Memory} (h : Memory.wf m = true) (a : Nat) (v : Byte) :
    Memory.wf (Memory.write m a v) = true :=
  Memory.write_risesFrom h v (Nat.zero_le a)

/-- A write of several bytes keeps the canonical form. -/
theorem Memory.writeBytes_wf {m : Memory} (h : Memory.wf m = true) (base : Nat) (bytes : List Byte) :
    Memory.wf (Memory.writeBytes m base bytes) = true := by
  induction bytes generalizing m base with
  | nil => exact h
  | cons v rest ih => exact ih (Memory.write_wf h base v) (base + 1)

theorem Memory.ofBytes_risesFrom (base : Nat) (bytes : List Byte) :
    Memory.risesFrom base (Memory.ofBytes base bytes) = true := by
  induction bytes generalizing base with
  | nil => rfl
  | cons v rest ih => simp [Memory.ofBytes, Memory.risesFrom, ih]

/-- A loaded buffer is in the canonical form. -/
theorem Memory.ofBytes_wf (bytes : List Byte) : Memory.wf (Memory.ofBytes 0 bytes) = true :=
  Memory.ofBytes_risesFrom 0 bytes

/-- What a loaded buffer reads: byte `k` at `base + k`, and nothing elsewhere. -/
theorem Memory.read_ofBytes (base : Nat) (bytes : List Byte) (k : Nat) :
    Memory.read (Memory.ofBytes base bytes) (base + k) = bytes[k]? := by
  induction bytes generalizing base k with
  | nil => rfl
  | cons v rest ih =>
    cases k with
    | zero => simp [Memory.ofBytes, Memory.read]
    | succ k =>
      have hne : base + (k + 1) ≠ base := by omega
      have := ih (base + 1) k
      simp only [Memory.ofBytes, Memory.read, if_neg hne, List.getElem?_cons_succ]
      rw [← this]; congr 1; omega

/-- Reset memory is in the canonical form. -/
theorem reset_mem_wf : Memory.wf State.reset.mem = true := rfl

/-- What `Fetch(a)` answers. -/
theorem fetchSlot_eq_some {m : Memory} {a : Nat} {sl : Slot} :
    fetchSlot m a = some sl ↔ Memory.read m a = some sl.b0 ∧ Memory.read m (a + 1) = some sl.b1 ∧
      Memory.read m (a + 2) = some sl.b2 ∧ Memory.read m (a + 3) = some sl.b3 := by
  unfold fetchSlot
  cases sl
  split <;> simp_all

/-- A fetch answers a slot where all four bytes stand in the buffer. -/
theorem fetchSlot_isSome {m : Memory} {a : Nat} (h : ∀ k, k < 4 → (Memory.read m (a + k)).isSome = true) :
    ∃ sl, fetchSlot m a = some sl := by
  obtain ⟨b0, h0⟩ := Option.isSome_iff_exists.mp (h 0 (by decide))
  obtain ⟨b1, h1⟩ := Option.isSome_iff_exists.mp (h 1 (by decide))
  obtain ⟨b2, h2⟩ := Option.isSome_iff_exists.mp (h 2 (by decide))
  obtain ⟨b3, h3⟩ := Option.isSome_iff_exists.mp (h 3 (by decide))
  exact ⟨⟨b0, b1, b2, b3⟩, fetchSlot_eq_some.mpr ⟨h0, h1, h2, h3⟩⟩

theorem atEnd_eq_true {s : State} : s.atEnd = true ↔ s.len ≤ s.pc.toNat := decide_eq_true_iff

theorem atEnd_eq_false {s : State} : s.atEnd = false ↔ s.pc.toNat < s.len := by
  rw [← Bool.not_eq_true, atEnd_eq_true, Nat.not_le]

theorem withIr_eq_fetched (s : State) (sl : Slot) : s.withIr sl = s.fetched sl := rfl

/-! ### Transfers -/

theorem validTarget_iff {len : Nat} {t : Word} :
    validTarget len t = true ↔ u16 t < len ∧ u16 t % 4 = 0 := by
  simp [validTarget]

/-- A transfer completes with the target as next pc, or raises OutOfBoundsJumpError. -/
theorem transferTo_cases (i : Instr) (t : Word) (w : Writes) (s : State) :
    (validTarget s.len t = true ∧ transferTo i t w s = .next (complete i { w with nextPc := t } s)) ∨
    (validTarget s.len t = false ∧ transferTo i t w s = .next (raiseError .outOfBoundsJump s)) := by
  unfold transferTo
  cases h : validTarget s.len t <;> simp

/-- The record stream after one more step. -/
theorem emit_true (tr : List TraceRecord) (r : TraceRecord) : emit true tr r = tr ++ [r] := rfl

theorem emit_false (tr : List TraceRecord) (r : TraceRecord) : emit false tr r = tr := rfl

end Sys2Proof.Machine
end

