-- ==== Sys2Proof/Laws/Operands.lean ====
section
/-! SUPPORT. What operand evaluation can do, said once: each source answers a value and the stack left, or the step raises
StackUnderflowError. -/

namespace Sys2Proof.Machine

@[simp] theorem operandValue_reg (i : RegIdx) (regs : Vector Word 16) (st : List Word) :
    operandValue (.reg i) regs st = some (regs[i], st) := rfl

@[simp] theorem operandValue_imm (v : Word) (regs : Vector Word 16) (st : List Word) :
    operandValue (.imm v) regs st = some (v, st) := rfl

@[simp] theorem operandValue_pop_cons (regs : Vector Word 16) (top : Word) (st : List Word) :
    operandValue .pop regs (top :: st) = some (top, st) := rfl

@[simp] theorem operandValue_pop_nil (regs : Vector Word 16) : operandValue .pop regs [] = none := rfl

@[simp] theorem popCount_nil : popCount [] = 0 := rfl

@[simp] theorem popCount_cons (o : Operand) (os : List Operand) :
    popCount (o :: os) = popCount os + if o.isPop then 1 else 0 := by
  simp [popCount, List.countP_cons]

@[simp] theorem isPop_reg (i : RegIdx) : (Operand.reg i).isPop = false := rfl

@[simp] theorem isPop_imm (v : Word) : (Operand.imm v).isPop = false := rfl

@[simp] theorem isPop_pop : Operand.pop.isPop = true := rfl

/-- A source fails exactly where it is Pop and the stack is empty. -/
theorem operandValue_eq_none {o : Operand} {regs : Vector Word 16} {st : List Word} :
    operandValue o regs st = none ↔ o = .pop ∧ st = [] := by
  cases o <;> cases st <;> simp

/-- A source that is not Pop leaves the stack; a Pop removes its top. -/
theorem operandValue_stack {o : Operand} {regs : Vector Word 16} {st st' : List Word} {v : Word}
    (h : operandValue o regs st = some (v, st')) : st' = st ∨ st = v :: st' := by
  cases o <;> cases st <;> simp_all

/-- Evaluating a source never lengthens the stack. -/
theorem operandValue_length {o : Operand} {regs : Vector Word 16} {st st' : List Word} {v : Word}
    (h : operandValue o regs st = some (v, st')) : st'.length ≤ st.length := by
  rcases operandValue_stack h with rfl | rfl <;> simp

theorem evalSource_length {a : Operand} {s : State} {v : Word} {st : List Word}
    (h : evalSource a s = some (v, st)) : st.length ≤ s.stack.length :=
  operandValue_length h

/-- Two sources are two evaluations, A first. -/
theorem evalSources_eq_some {a b : Operand} {s : State} {va vb : Word} {st : List Word} :
    evalSources a b s = some (va, vb, st) ↔
      ∃ mid, operandValue a s.regs s.stack = some (va, mid) ∧ operandValue b s.regs mid = some (vb, st) := by
  unfold evalSources
  constructor
  · intro h
    split at h
    · cases h
    · rename_i v mid hm
      split at h
      · cases h
      · rename_i w st' hw
        cases h
        exact ⟨mid, hm, hw⟩
  · rintro ⟨mid, h1, h2⟩
    simp [h1, h2]

theorem evalSources_length {a b : Operand} {s : State} {va vb : Word} {st : List Word}
    (h : evalSources a b s = some (va, vb, st)) : st.length ≤ s.stack.length := by
  obtain ⟨mid, h1, h2⟩ := evalSources_eq_some.mp h
  exact Nat.le_trans (operandValue_length h2) (operandValue_length h1)

theorem withSource_some {a : Operand} {s : State} {v : Word} {st : List Word}
    (h : evalSource a s = some (v, st)) (k : Word → List Word → Host.Outcome State Fault Refusal) :
    withSource a s k = k v st := by
  simp [withSource, h]

theorem withSource_none {a : Operand} {s : State} (h : evalSource a s = none)
    (k : Word → List Word → Host.Outcome State Fault Refusal) :
    withSource a s k = .next (raiseError .stackUnderflow s) := by
  simp [withSource, h]

theorem withSources_some {a b : Operand} {s : State} {va vb : Word} {st : List Word}
    (h : evalSources a b s = some (va, vb, st)) (k : Word → Word → List Word → Host.Outcome State Fault Refusal) :
    withSources a b s k = k va vb st := by
  simp [withSources, h]

theorem withSources_none {a b : Operand} {s : State} (h : evalSources a b s = none)
    (k : Word → Word → List Word → Host.Outcome State Fault Refusal) :
    withSources a b s k = .next (raiseError .stackUnderflow s) := by
  simp [withSources, h]

end Sys2Proof.Machine
end

