-- ==== Sys2Proof/Laws/Exec.lean ====
section
/-! SUPPORT. What executing an instruction can do, said once: it raises one of three errors, or it completes with writes that
are within bounds. Every claim about all instructions cites `exec_cases` instead of unfolding the meanings. -/

namespace Sys2Proof.Machine

/-- The errors that executing a decoded instruction can raise (R301): InvalidInstructionError comes from decode and
InvalidRegisterError from no step. -/
inductive ExecRaises (s : State) : ExecutionError → Prop where
  | underflow : ExecRaises s .stackUnderflow
  | jump : ExecRaises s .outOfBoundsJump
  | overflow (n : Nat) (h : s.stackCapacity = some n) : ExecRaises s .stackOverflow

/-- The bounds that every completed instruction's writes keep. -/
structure BoundedWrites (i : Instr) (s : State) (w : Writes) : Prop where
  nextPc : w.nextPc = s.pcPlus4 ∨ validTarget s.len w.nextPc = true
  stack : w.stack.length ≤ s.stack.length ∨ ∀ n, s.stackCapacity = some n → w.stack.length ≤ n
  cmpf : i.op ≠ .eq → w.cmpf = none
  halt : w.halt = true → i = .stop

/-- What `exec` can answer. -/
def ExecAnswers (i : Instr) (s : State) (o : Host.Outcome State Fault Refusal) : Prop :=
  (∃ e, ExecRaises s e ∧ o = .next (raiseError e s)) ∨
  (∃ w, BoundedWrites i s w ∧ o = .next (complete i w s))

theorem withSource_answers {i : Instr} {a : Operand} {s : State}
    {k : Word → List Word → Host.Outcome State Fault Refusal}
    (h : ∀ v st, st.length ≤ s.stack.length → ExecAnswers i s (k v st)) :
    ExecAnswers i s (withSource a s k) := by
  cases he : evalSource a s with
  | none => rw [withSource_none he]; exact .inl ⟨_, .underflow, rfl⟩
  | some p => obtain ⟨v, st⟩ := p; rw [withSource_some he]; exact h v st (evalSource_length he)

theorem withSources_answers {i : Instr} {a b : Operand} {s : State}
    {k : Word → Word → List Word → Host.Outcome State Fault Refusal}
    (h : ∀ va vb st, st.length ≤ s.stack.length → ExecAnswers i s (k va vb st)) :
    ExecAnswers i s (withSources a b s k) := by
  cases he : evalSources a b s with
  | none => rw [withSources_none he]; exact .inl ⟨_, .underflow, rfl⟩
  | some p => obtain ⟨va, vb, st⟩ := p; rw [withSources_some he]; exact h va vb st (evalSources_length he)

theorem transferTo_answers {i : Instr} {t : Word} {w : Writes} {s : State}
    (hs : w.stack.length ≤ s.stack.length) (hc : w.cmpf = none) (hh : w.halt = false) :
    ExecAnswers i s (transferTo i t w s) := by
  rcases transferTo_cases i t w s with ⟨hv, he⟩ | ⟨-, he⟩
  · exact .inr ⟨{ w with nextPc := t }, ⟨.inr hv, .inl hs, fun _ => hc, fun h => by simp [hh] at h⟩, he⟩
  · exact .inl ⟨_, .jump, he⟩

theorem advance_answers {i : Instr} {s : State} {st : List Word} {r : Option (RegIdx × Word)}
    (hs : st.length ≤ s.stack.length) :
    ExecAnswers i s (.next (complete i { stack := st, reg := r, nextPc := s.pcPlus4 } s)) :=
  .inr ⟨_, ⟨.inl rfl, .inl hs, fun _ => rfl, fun h => by cases h⟩, rfl⟩

theorem computeToReg_answers {i : Instr} (rd : RegIdx) (a b : Operand) (f : Word → Word → Word) (s : State) :
    ExecAnswers i s (computeToReg i rd a b f s) :=
  withSources_answers fun _ _ _ hs => advance_answers hs

theorem jumpIf_true (i : Instr) (t : Word) (st : List Word) (s : State) :
    jumpIf i true t st s = transferTo i t { stack := st, nextPc := t } s := rfl

theorem jumpIf_false (i : Instr) (t : Word) (st : List Word) (s : State) :
    jumpIf i false t st s = .next (complete i { stack := st, nextPc := s.pcPlus4 } s) := rfl

theorem jumpIf_answers {i : Instr} (taken : Bool) (t : Word) (st : List Word) (s : State)
    (hs : st.length ≤ s.stack.length) : ExecAnswers i s (jumpIf i taken t st s) := by
  cases taken with
  | true => exact transferTo_answers hs rfl rfl
  | false => exact advance_answers hs

theorem push_answers (v : Operand) (s : State) : ExecAnswers (.push v) s (execPush v s) := by
  refine withSource_answers fun va st hs => ?_
  cases hr : hasRoom s.stackCapacity st with
  | true =>
    refine .inr ⟨_, ⟨.inl rfl, .inr fun n hn => ?_, fun _ => rfl, fun h => by cases h⟩, rfl⟩
    simpa [hasRoom, hn, Nat.succ_le_iff] using hr
  | false =>
    cases hn : s.stackCapacity with
    | none => simp [hasRoom, hn] at hr
    | some n => exact .inl ⟨_, .overflow n hn, rfl⟩

theorem pop_answers (s : State) : ExecAnswers .pop s (execPop s) := by
  unfold execPop
  cases hs : s.stack with
  | nil => exact .inl ⟨_, .underflow, rfl⟩
  | cons v rest =>
    exact .inr ⟨_, ⟨.inl rfl, .inl (by simp [hs]), fun _ => rfl, fun h => by cases h⟩, rfl⟩

/-- Everything executing an instruction can do. -/
theorem exec_cases (i : Instr) (s : State) : ExecAnswers i s (exec i s) := by
  cases i with
  | mov rd a => exact withSource_answers fun _ _ hs => advance_answers hs
  | add rd a b => exact computeToReg_answers rd a b _ s
  | sub rd a b => exact computeToReg_answers rd a b _ s
  | lt rd a b => exact computeToReg_answers rd a b _ s
  | gt rd a b => exact computeToReg_answers rd a b _ s
  | lteq rd a b => exact computeToReg_answers rd a b _ s
  | eq a b =>
    exact withSources_answers fun _ _ _ hs =>
      .inr ⟨_, ⟨.inl rfl, .inl hs, fun h => absurd rfl h, fun h => by cases h⟩, rfl⟩
  | jmpt c t => exact withSources_answers fun _ _ _ hs => jumpIf_answers _ _ _ s hs
  | jmpf c t => exact withSources_answers fun _ _ _ hs => jumpIf_answers _ _ _ s hs
  | call t => exact withSource_answers fun _ _ hs => transferTo_answers hs rfl rfl
  | ret => exact transferTo_answers (Nat.le_refl _) rfl rfl
  | push v => exact push_answers v s
  | pop => exact pop_answers s
  | nop => exact advance_answers (Nat.le_refl _)
  | stop => exact .inr ⟨_, ⟨.inl rfl, .inl (Nat.le_refl _), fun _ => rfl, fun _ => rfl⟩, rfl⟩

end Sys2Proof.Machine
end

