-- ==== Sys2Proof/Laws/Step.lean ====
section
/-! SUPPORT. What one step can do, said once (R161): there is no step in Halted; the end of the buffer halts; an INVALID slot
raises InvalidInstructionError; else the decoded instruction is executed with IR written. -/

namespace Sys2Proof.Machine

theorem step_halted {s : State} {e : Option ExecutionError} (h : s.status = .halted e) : step s = .fault .halted := by
  simp [step, h]

theorem step_atEnd {s : State} (hr : s.status = .running) (he : s.atEnd = true) : step s = .next (haltAtEnd s) := by
  simp [step, hr, he]

theorem step_noSlot {s : State} (hr : s.status = .running) (he : s.atEnd = false)
    (hf : fetchSlot s.mem (u16 s.pc) = none) : step s = .fault .fetchOutsideBuffer := by
  simp [step, hr, he, hf]

theorem step_invalid {s : State} {sl : Slot} {d : DecodeError} (hr : s.status = .running) (he : s.atEnd = false)
    (hf : fetchSlot s.mem (u16 s.pc) = some sl) (hd : decode sl = .error d) :
    step s = .next (raiseError .invalidInstruction (s.withIr sl)) := by
  simp [step, hr, he, hf, hd]

theorem step_exec {s : State} {sl : Slot} {i : Instr} (hr : s.status = .running) (he : s.atEnd = false)
    (hf : fetchSlot s.mem (u16 s.pc) = some sl) (hd : decode sl = .ok i) : step s = exec i (s.withIr sl) := by
  simp [step, hr, he, hf, hd]

/-- Everything a step that answers a next state can have done. -/
theorem step_next_cases {s t : State} (h : step s = .next t) :
    s.status = .running ∧
    ((s.atEnd = true ∧ t = haltAtEnd s) ∨
     ∃ sl, s.atEnd = false ∧ fetchSlot s.mem (u16 s.pc) = some sl ∧
       ((∃ d, decode sl = .error d ∧ t = raiseError .invalidInstruction (s.withIr sl)) ∨
        ∃ i, decode sl = .ok i ∧ exec i (s.withIr sl) = .next t)) := by
  cases hr : s.status with
  | halted e => rw [step_halted hr] at h; cases h
  | running =>
    refine ⟨rfl, ?_⟩
    cases he : s.atEnd with
    | true => rw [step_atEnd hr he] at h; cases h; exact .inl ⟨rfl, rfl⟩
    | false =>
      cases hf : fetchSlot s.mem (u16 s.pc) with
      | none => rw [step_noSlot hr he hf] at h; cases h
      | some sl =>
        refine .inr ⟨sl, rfl, rfl, ?_⟩
        cases hd : decode sl with
        | error d => rw [step_invalid hr he hf hd] at h; cases h; exact .inl ⟨d, rfl, rfl⟩
        | ok i => rw [step_exec hr he hf hd] at h; exact .inr ⟨i, rfl, h⟩

/-- A property that one step keeps holds along every run of steps. -/
theorem Steps.keeps {P : State → Prop} (hstep : ∀ s t, P s → step s = .next t → P t) {s t : State}
    (h : Steps s t) (hs : P s) : P t := by
  induction h with
  | refl => exact hs
  | tail _ hn ih => exact hstep _ _ ih hn

end Sys2Proof.Machine
end

