-- ==== Sys2Proof/Laws/Ports.lean ====
section
/-! SUPPORT. What the host's reset and run can do, said once. -/

namespace Sys2Proof.Machine

theorem acceptsLength_iff {n : Nat} : acceptsLength n = true ↔ n % 4 = 0 ∧ n ≤ 65532 := by
  unfold acceptsLength
  rw [Bool.and_eq_true, decide_eq_true_iff, decide_eq_true_iff]
  rfl

theorem hostReset_accepted {buffer : List Byte} (h : acceptsLength buffer.length = true) (initRegs : Vector Word 16)
    (mode : Mode) (s : State) : hostReset buffer initRegs mode s = .next (resetState buffer initRegs mode s) := by
  simp [hostReset, h]

theorem hostReset_refused {buffer : List Byte} (h : acceptsLength buffer.length = false) (initRegs : Vector Word 16)
    (mode : Mode) (s : State) : hostReset buffer initRegs mode s = .refused (.bufferRefused buffer.length) := by
  simp [hostReset, h]

/-- A reset that answers a next state accepted its buffer, and that state is `resetState`. -/
theorem hostReset_next {buffer : List Byte} {initRegs : Vector Word 16} {mode : Mode} {s t : State}
    (h : hostReset buffer initRegs mode s = .next t) :
    acceptsLength buffer.length = true ∧ t = resetState buffer initRegs mode s := by
  cases ha : acceptsLength buffer.length with
  | true => rw [hostReset_accepted ha] at h; cases h; exact ⟨rfl, rfl⟩
  | false => rw [hostReset_refused ha] at h; cases h

/-- One more step of a run from a Running state. -/
theorem run_succ {n : Nat} {s t : State} (hr : s.status = .running) (h : step s = .next t) :
    run (n + 1) s = run n t := by
  simp [run, hr, h]

/-- A run from a Halted state is over. -/
theorem run_halted {n : Nat} {s : State} {e : Option ExecutionError} (h : s.status = .halted e) : run n s = .next s := by
  cases n <;> simp [run, h]

end Sys2Proof.Machine
end

