-- ==== Sys2Proof/Laws/Assembler.lean ====
section
/-! SUPPORT. What the two passes of the assembler can do, said once: one line of pass 1, the symbol table, one line of pass 2,
and the buffer they give. -/

namespace Sys2Proof.Machine

/-! ### The symbol table -/

theorem lookupLabel_append (sym tail : List (Token × Nat)) (name : Token) :
    lookupLabel (sym ++ tail) name = (lookupLabel sym name).or (lookupLabel tail name) := by
  induction sym with
  | nil => rfl
  | cons p rest ih =>
    obtain ⟨n, off⟩ := p
    by_cases h : n = name
    · simp [lookupLabel, h]
    · simp [lookupLabel, h, ih]

/-! ### Pass 1 -/

/-- Everything one line of pass 1 can do (R116). -/
theorem pass1Line_cases (ly : Layout) (l : LineKind) :
    (l = .empty ∧ pass1Line ly l = .ok ly) ∨
    (∃ m ops, l = .instruction m ops ∧ pass1Line ly l = .ok { ly with off := ly.off + 4 }) ∨
    (∃ tok name, l = .label tok ∧ labelName tok = some name ∧ lookupLabel ly.sym name = none ∧
      pass1Line ly l = .ok { ly with sym := ly.sym ++ [(name, ly.off)] }) ∨
    (∃ tok r, l = .label tok ∧ pass1Line ly l = .error (.syntaxError r)) := by
  cases l with
  | empty => exact .inl ⟨rfl, rfl⟩
  | instruction m ops => exact .inr (.inl ⟨m, ops, rfl, rfl⟩)
  | label tok =>
    cases hn : labelName tok with
    | none => exact .inr (.inr (.inr ⟨tok, .malformedLabel, rfl, by simp [pass1Line, hn]⟩))
    | some name =>
      cases hl : lookupLabel ly.sym name with
      | none => exact .inr (.inr (.inl ⟨tok, name, rfl, hn, hl, by simp [pass1Line, hn, hl]⟩))
      | some off => exact .inr (.inr (.inr ⟨tok, .duplicateLabel, rfl, by simp [pass1Line, hn, hl]⟩))

/-- A pass 1 that accepts a line and the rest. -/
theorem pass1_cons {n : Nat} {ly ly' : Layout} {l : LineKind} {rest : List LineKind}
    (h : pass1 n ly (l :: rest) = .ok ly') : ∃ mid, pass1Line ly l = .ok mid ∧ pass1 (n + 1) mid rest = .ok ly' := by
  simp only [pass1] at h
  split at h
  · cases h
  · rename_i mid hm; exact ⟨mid, hm, h⟩

/-- Pass 1 raises SyntaxError alone (R115, R117). -/
theorem pass1_error {n : Nat} {ly : Layout} {lines : List LineKind} {f : AsmFailure}
    (h : pass1 n ly lines = .error f) : ∃ r, f.error = .syntaxError r := by
  induction lines generalizing n ly with
  | nil => cases h
  | cons l rest ih =>
    simp only [pass1] at h
    split at h
    · rename_i e he
      cases h
      rcases pass1Line_cases ly l with ⟨-, h1⟩ | ⟨_, _, -, h1⟩ | ⟨_, _, -, -, -, h1⟩ | ⟨_, r, -, h1⟩ <;>
        rw [h1] at he <;> cases he
      exact ⟨r, rfl⟩
    · exact ih h

/-- One line of pass 1 only adds to the symbol table, and no offset falls. -/
theorem pass1Line_keeps {ly ly' : Layout} {l : LineKind} (h : pass1Line ly l = .ok ly') {name : Token} {off : Nat}
    (hs : lookupLabel ly.sym name = some off) : lookupLabel ly'.sym name = some off := by
  rcases pass1Line_cases ly l with ⟨-, h1⟩ | ⟨_, _, -, h1⟩ | ⟨_, _, -, -, -, h1⟩ | ⟨_, r, -, h1⟩ <;>
    rw [h1] at h <;> cases h
  · exact hs
  · exact hs
  · simp [lookupLabel_append, hs]

/-! ### Pass 2 -/

/-- An instruction line that assembles gives an instruction that fits the slot (R129). -/
theorem assembleLine_wf {sym : List (Token × Nat)} {m : Token} {ops : List Token} {i : Instr}
    (h : assembleLine sym m ops = .ok i) : i.wf = true := by
  unfold assembleLine at h
  split at h
  · cases h
  · split at h
    · cases h
    · split at h
      · cases h
      · split at h
        · cases h
        · unfold fitSlot at h
          split at h
          · cases h
          · split at h
            · cases h; assumption
            · cases h

/-- A pass 2 that accepts a source: the instructions of its INSTRUCTION lines, in order (R120). -/
theorem pass2_cons {sym : List (Token × Nat)} {n : Nat} {l : LineKind} {rest : List LineKind} {is : List Instr}
    (h : pass2 sym n (l :: rest) = .ok is) :
    ((∀ m ops, l ≠ .instruction m ops) ∧ pass2 sym (n + 1) rest = .ok is) ∨
    (∃ m ops i tail, l = .instruction m ops ∧ assembleLine sym m ops = .ok i ∧
      pass2 sym (n + 1) rest = .ok tail ∧ is = i :: tail) := by
  cases l with
  | empty => exact .inl ⟨by simp, h⟩
  | label t => exact .inl ⟨by simp, h⟩
  | instruction m ops =>
    simp only [pass2] at h
    split at h
    · cases h
    · rename_i i hi
      split at h
      · cases h
      · rename_i tail ht
        cases h
        exact .inr ⟨m, ops, i, tail, rfl, hi, ht, rfl⟩

theorem encodeAll_length (is : List Instr) : (encodeAll is).length = 4 * is.length := by
  induction is with
  | nil => rfl
  | cons i rest ih => simp [encodeAll, Slot.bytes, ih]; omega

/-! ### The whole assembler -/

/-- What an accepted source satisfies (R110). -/
theorem assemble_ok {source buffer : List Byte} (h : assemble source = .ok buffer) :
    ∃ text ly is, utf8Decode source = some text ∧ pass1 1 Layout.start (sourceLines text) = .ok ly ∧
      ly.off ≤ 65532 ∧ pass2 ly.sym 1 (sourceLines text) = .ok is ∧ buffer = encodeAll is := by
  unfold assemble at h
  split at h
  · cases h
  · rename_i text ht
    split at h
    · cases h
    · rename_i is his
      cases h
      unfold assembleLines at his
      split at his
      · cases his
      · rename_i ly hly
        split at his
        · cases his
        · rename_i hb
          exact ⟨text, ly, is, ht, hly, Nat.le_of_not_lt hb, his, rfl⟩

end Sys2Proof.Machine
end

