-- ==== Sys2Proof/Tests/Slice0.lean ====
section
/-! SUPPORT. Tests. Expected results are taken from spec/95_test_vectors.md (section numbers in the comments) or worked out by
hand from the rules. -/

namespace Sys2Proof.Tests

open Sys2Proof.Machine

/-! ### Helpers -/

/-- The state of 95 section 2: LEN = 0x20, everything else as reset leaves it. -/
def base : State := { State.reset with len := 0x20 }

def State.withReg (s : State) (i : RegIdx) (v : Word) : State := { s with regs := setReg s.regs i v }

def State.withPc (s : State) (pc : Word) : State := { s with pc := pc }

/-- The stack written bottom first, as 95 writes it. -/
def State.withStack (s : State) (bottomFirst : List Word) : State := { s with stack := bottomFirst.reverse }

/-- A field of the next state, if there is one. -/
def after {α : Type} (o : Host.Outcome State Fault Refusal) (f : State → α) : Option α :=
  match o with
  | .next t => some (f t)
  | .fault _ => none
  | .refused _ => none

/-- MODE with both bits set. -/
def debugMode : Mode := { debug := true, stats := true }

/-- ASCII text as bytes. -/
def text (s : String) : List Byte := s.toList.map fun c => BitVec.ofNat 8 c.toNat

/-! ### WellFormed: an ill-formed term for each check -/

theorem test_wf_refuses_two_immediates : (Instr.eq (.imm 1) (.imm 1)).wf = false := by decide
theorem test_wf_refuses_three_registers : (Instr.add 0 (.reg 1) (.reg 2)).wf = false := by decide
theorem test_wf_refuses_two_immediates_with_dst : (Instr.lt 0 (.imm 1) (.imm 2)).wf = false := by decide
theorem test_wf_accepts_two_registers : (Instr.jmpt (.reg 1) (.reg 1)).wf = true := by decide

/-! ### Decoding: words written out from 30 sections 1 to 5 (95 sections 2 and 2.7), one or more per constructor -/

theorem test_decode_mov : decode ⟨0x80, 0x10, 0x04, 0x01⟩ = .ok (.mov 1 (.imm 260)) := by decide
theorem test_decode_mov_reg : decode ⟨0x40, 0x21, 0x12, 0x34⟩ = .ok (.mov 2 (.reg 1)) := by decide
theorem test_decode_add : decode ⟨0x91, 0x02, 0x00, 0x80⟩ = .ok (.add 0 (.imm 0x8000) (.reg 2)) := by decide
theorem test_decode_sub : decode ⟨0x72, 0x01, 0x00, 0x00⟩ = .ok (.sub 0 (.reg 1) .pop) := by decide
theorem test_decode_lt : decode ⟨0x63, 0x21, 0x03, 0x00⟩ = .ok (.lt 2 (.reg 1) (.imm 3)) := by decide
theorem test_decode_gt : decode ⟨0xF4, 0x40, 0x00, 0x00⟩ = .ok (.gt 4 .pop .pop) := by decide
theorem test_decode_lteq : decode ⟨0x95, 0x51, 0x00, 0x80⟩ = .ok (.lteq 5 (.imm 0x8000) (.reg 1)) := by decide
theorem test_decode_eq : decode ⟨0x56, 0x12, 0x00, 0x00⟩ = .ok (.eq (.reg 1) (.reg 2)) := by decide
theorem test_decode_jmpt : decode ⟨0x97, 0x30, 0x0C, 0x00⟩ = .ok (.jmpt (.imm 12) (.reg 3)) := by decide
theorem test_decode_jmpf : decode ⟨0x78, 0x30, 0x00, 0x00⟩ = .ok (.jmpf (.reg 3) .pop) := by decide
theorem test_decode_call : decode ⟨0xC9, 0xAB, 0x00, 0x00⟩ = .ok (.call .pop) := by decide
theorem test_decode_ret : decode ⟨0x0A, 0x10, 0x00, 0x00⟩ = .ok .ret := by decide
theorem test_decode_push : decode ⟨0x4B, 0xF0, 0x00, 0x00⟩ = .ok (.push (.reg 15)) := by decide
theorem test_decode_pop : decode ⟨0x0C, 0x00, 0x00, 0x00⟩ = .ok .pop := by decide
theorem test_decode_nop : decode ⟨0x0D, 0xFF, 0xFF, 0xFF⟩ = .ok .nop := by decide
theorem test_decode_stop : decode ⟨0x0E, 0x00, 0x00, 0x00⟩ = .ok .stop := by decide
theorem test_decode_zero_slot : decode ⟨0x00, 0x00, 0x00, 0x00⟩ = .error .wrongSources := by decide
theorem test_decode_reserved : decode ⟨0xFF, 0x00, 0x00, 0x00⟩ = .error .reservedOperation := by decide
theorem test_decode_three_registers : decode ⟨0x51, 0x00, 0x00, 0x00⟩ = .error .threeRegisters := by decide
theorem test_decode_two_immediates : decode ⟨0xA6, 0x00, 0x00, 0x00⟩ = .error .twoImmediates := by decide
theorem test_decode_call_with_b : decode ⟨0x99, 0x00, 0x00, 0x00⟩ = .error .wrongSources := by decide
theorem test_table_word : decodeTableWord 32 0x8B000500 = some (.push (.imm 5)) := by decide
theorem test_encode_call : encode (.call (.imm 4)) = ⟨0x89, 0x00, 0x04, 0x00⟩ := by decide

/-! ### One step per instruction (95 sections 2.1 to 2.6) -/

theorem test_mov_pop : after (exec (.mov 3 .pop) (State.withStack base [5, 7])) (fun t => (t.readReg 3, t.stack, t.pc)) =
    some (7, [5], 4) := by decide
theorem test_add_wraps : after (exec (.add 0 (.reg 1) (.imm 1)) (State.withReg base 1 0x7FFF)) (·.readReg 0) =
    some 0x8000 := by decide
theorem test_add_dst_is_source : after (exec (.add 1 (.reg 1) (.imm 1)) (State.withReg base 1 2)) (·.readReg 1) =
    some 3 := by decide
theorem test_sub_pop_pop : after (exec (.sub 0 .pop .pop) (State.withStack base [10, 3])) (fun t => (t.readReg 0, t.stack)) =
    some (0xFFF9, []) := by decide
theorem test_sub_min : after (exec (.sub 0 (.imm 0) (.reg 1)) (State.withReg base 1 0x8000)) (·.readReg 0) =
    some 0x8000 := by decide
theorem test_lt_signed : after (exec (.lt 2 (.reg 1) (.imm 1)) (State.withReg base 1 0xFFFF)) (·.readReg 2) = some 1 := by
  decide
theorem test_gt_signed : after (exec (.gt 4 (.reg 1) (.imm 0)) (State.withReg (State.withReg base 1 0xFFFF) 4 9)) (·.readReg 4) =
    some 0 := by decide
theorem test_lteq_equal : after (exec (.lteq 5 (.reg 1) (.imm 3)) (State.withReg base 1 3)) (·.readReg 5) = some 1 := by decide
theorem test_lteq_max_min : after (exec (.lteq 5 (.reg 1) (.imm 0x8000)) (State.withReg base 1 0x7FFF)) (·.readReg 5) =
    some 0 := by decide
theorem test_eq_flag : after (exec (.eq .pop .pop) (State.withStack base [4, 4])) (fun t => (t.cmpf, t.stack)) =
    some (true, []) := by decide
theorem test_eq_differs : after (exec (.eq (.reg 1) (.reg 2)) { State.withReg base 1 5 with cmpf := true }) (·.cmpf) =
    some false := by decide
theorem test_jmpt_pop_pop : after (exec (.jmpt .pop .pop) (State.withStack (State.withPc base 0x0C) [8, 0]))
    (fun t => (t.pc, t.stack)) = some (0x10, []) := by decide
theorem test_jmpt_to_len : after (exec (.jmpt (.reg 2) (.imm 32)) (State.withReg (State.withPc base 0x0C) 2 1))
    (fun t => (t.pc, readStatus t)) = some (0x0C, 6) := by decide
theorem test_jmpf_pop_pop : after (exec (.jmpf .pop .pop) (State.withStack base [8, 0])) (fun t => (t.pc, t.stack)) =
    some (8, []) := by decide
theorem test_jmpf_not_taken_pops : after (exec (.jmpf (.reg 3) .pop) (State.withReg base 3 1)) (fun t => (t.pc, readStatus t)) =
    some (0, 2) := by decide
theorem test_call_r15 : after (exec (.call (.reg 15)) (State.withReg (State.withPc base 0x0C) 15 8))
    (fun t => (t.pc, t.readReg 15)) = some (8, 0x10) := by decide
theorem test_call_bad_keeps_r15 : after (exec (.call (.imm 2)) (State.withReg (State.withPc base 0x0C) 15 5))
    (fun t => (t.pc, t.readReg 15, readStatus t)) = some (0x0C, 5, 6) := by decide
theorem test_ret : after (exec .ret (State.withReg (State.withPc base 8) 15 0x0C)) (·.pc) = some 0x0C := by decide
theorem test_ret_misaligned : after (exec .ret (State.withReg (State.withPc base 8) 15 0xFFFE)) (fun t => (t.pc, readStatus t)) =
    some (8, 6) := by decide
theorem test_push_full : after (exec (.push (.imm 5)) { State.withStack base [1, 2] with stackCapacity := some 2 })
    (fun t => (t.stack.reverse, readStatus t)) = some ([1, 2], 10) := by decide
theorem test_push_pop_full : after (exec (.push .pop) { State.withStack base [1, 2] with stackCapacity := some 2 })
    (fun t => (t.stack.reverse, readStatus t)) = some ([1, 2], 1) := by decide
theorem test_pop : after (exec .pop (State.withStack base [5, 7])) (·.stack) = some [5] := by decide
theorem test_pop_empty : after (exec .pop base) (fun t => (t.pc, readStatus t)) = some (0, 2) := by decide
theorem test_nop : after (exec .nop (State.withPc base 8)) (·.pc) = some 12 := by decide
theorem test_stop : after (exec .stop (State.withPc base 0x10)) (fun t => (t.pc, readStatus t, t.instret)) =
    some (0x14, 0, 1) := by decide

/-! ### The step, reset and the host interface (95 sections 1.8, 2.7, 2.8, 2.9, 4) -/

theorem test_step_placed_word : after (step (State.reset.withFetchWord 32 0x8B000500)) (fun t => (t.stack, t.ir)) =
    some ([5], 0x8B000500) := by decide
theorem test_step_illegal : after (step (State.reset.withFetchWord 32 0x0F000000)) (fun t => (readStatus t, t.pc, t.instret)) =
    some (8, 0, 0) := by decide
theorem test_step_empty_buffer : after (execute 3 [] defaultInitRegs defaultMode base) (fun t => (readStatus t, t.pc, t.instret)) =
    some (0, 0, 0) := by decide
theorem test_reset_refuses_length : hostReset [0, 0, 0] defaultInitRegs defaultMode base = .refused (.bufferRefused 3) := by rfl
theorem test_read_register_16 : readRegister 16 base = .error .invalidRegister := by decide
theorem test_read_stats_off : readStats base = none := by decide
theorem test_trace_record : after (exec (.push (.imm 5)) { base with mode := debugMode }) (fun t => t.trace.map (fun r => (r.pc, r.instr))) =
    some [(0, .push (.imm 5))] := by decide
/-- 95 section 1.3, buffer and end state. -/
theorem test_run_mov_mov : after (execute 3 [0x80, 0x10, 0x04, 0x01, 0x40, 0x21, 0, 0] defaultInitRegs defaultMode base)
    (fun t => (t.readReg 2, readStatus t, t.pc, t.instret)) = some (0x0104, 0, 8, 2) := by decide

/-! ### The assembler (95 section 3) -/

theorem test_asm_spaces : assemble (text "\tmov   r1\t#260  ; load\r\n") = .ok [0x80, 0x10, 0x04, 0x01] := by decide
theorem test_asm_label_forward : assemble (text "jmpf r0 back\nback:\njmpt pop back") =
    .ok [0x68, 0x00, 0x04, 0x00, 0xE7, 0x00, 0x04, 0x00] := by decide
theorem test_asm_label_at_end : assemble (text "mov r15 done\nnop\ndone:") =
    .ok [0x80, 0xF0, 0x08, 0x00, 0x0D, 0x00, 0x00, 0x00] := by decide
theorem test_asm_mnemonic_label : assemble (text "stop:\njmpf r0 stop") = .ok [0x68, 0x00, 0x00, 0x00] := by decide
theorem test_asm_min : assemble (text "mov r1 #-32768") = .ok [0x80, 0x10, 0x00, 0x80] := by decide
theorem test_asm_too_big : assemble (text "mov r1 #32768") = .error ⟨some 1, .syntaxError .malformedImmediate⟩ := by decide
theorem test_asm_bad_register : assemble (text "mov r01 #1") = .error ⟨some 1, .syntaxError .badRegister⟩ := by decide
theorem test_asm_upper_register : assemble (text "mov R1 #1") = .error ⟨some 1, .undefinedLabelError ['R', '1']⟩ := by decide
theorem test_asm_comma : assemble (text "mov r1, r2") = .error ⟨some 1, .syntaxError .malformedOperand⟩ := by decide
theorem test_asm_dst : assemble (text "mov pop r1") = .error ⟨some 1, .syntaxError .destinationNotRegister⟩ := by decide
theorem test_asm_three_registers : assemble (text "add r0 r1 r2") = .error ⟨some 1, .syntaxError .notEncodable⟩ := by decide
theorem test_asm_label_and_instr : assemble (text "loop: add r1 r1 #1") = .error ⟨some 1, .syntaxError .unrecognizedMnemonic⟩ := by
  decide
theorem test_asm_pass1_first : assemble (text "jmpt r1 nowhere\nx:\nx:") = .error ⟨some 3, .syntaxError .duplicateLabel⟩ := by
  decide
theorem test_asm_label_named_pop : assemble (text "pop:\nstop") = .error ⟨some 1, .syntaxError .malformedLabel⟩ := by decide
theorem test_asm_invalid_utf8 : assemble [0xC0, 0x80] = .error ⟨none, .syntaxError .invalidText⟩ := by decide
/-- A two-byte character in a comment is no error (R112). -/
theorem test_asm_utf8_comment : assemble [0x6E, 0x6F, 0x70, 0x3B, 0xC3, 0xA9] = .ok [0x0D, 0, 0, 0] := by decide

/-! ### Witnesses: states and operands that meet the hypotheses of each obligation, at the boundaries of its clauses -/

/-- Reset, with the slot of a table word placed at pc: LEN = 4. -/
def placed (w : Nat) : State := State.reset.withFetchWord 32 w

/-- `placed`, with a stack written bottom first. -/
def placedOn (w : Nat) (bottomFirst : List Word) : State := State.withStack (placed w) bottomFirst

theorem witness_EncodeFillsTheSlotAndDecodesBack :
    (Instr.add 15 .pop (.imm 0xFFFF)).wf = true ∧
    (Instr.add 15 .pop (.imm 0xFFFF)).sources.2 = some (.imm 0xFFFF) ∧ usesImm (.eq (.reg 15) (.reg 0)) = false := by
  decide
theorem witness_DecodeFillsOperandsInOrder :
    decode ⟨0x56, 0xF0, 0, 0⟩ = .ok (.eq (.reg 15) (.reg 0)) ∧
    decode ⟨0x91, 0x02, 0x00, 0x80⟩ = .ok (.add 0 (.imm 0x8000) (.reg 2)) ∧
    (Instr.add 0 (.imm 0x8000) (.reg 2)).sources.1 = some (.imm 0x8000) := by decide
theorem witness_UnusedFieldsAreIgnoredAndWrittenZero :
    decode ⟨0x4B, 0xF0, 0, 0⟩ = .ok (.push (.reg 15)) ∧ (Instr.push (.reg 15)).registers.length = 1 ∧
    usesImm (.push (.reg 15)) = false ∧ decode ⟨0x4B, 0xFA, 0x12, 0x34⟩ = .ok (.push (.reg 15)) ∧
    (Instr.ret).registers.length = 0 ∧ usesImm (.push (.imm 5)) = true := by decide

theorem witness_StepRunsTheDecodedInstruction :
    (placed 0x8B000500).status = .running ∧ (placed 0x8B000500).pc.toNat < (placed 0x8B000500).len ∧
    (placed 0x8B000500).SlotAtPc ⟨0x8B, 0, 5, 0⟩ ∧ decode ⟨0x8B, 0, 5, 0⟩ = .ok (.push (.imm 5)) :=
  ⟨rfl, by decide, ⟨rfl, rfl, rfl, rfl⟩, by decide⟩
theorem witness_EndOfBufferHaltsWithoutError :
    State.reset.status = .running ∧ State.reset.len ≤ State.reset.pc.toNat ∧
    (State.withPc base 0x20).status = .running ∧ (State.withPc base 0x20).len = (State.withPc base 0x20).pc.toNat := by
  decide
theorem witness_IllegalSlotRaisesInvalidInstruction :
    (∀ o, (0x0F : Byte) ∉ legalB0 o) ∧ (∀ o, (0x00 : Byte) ∉ legalB0 o) ∧ (placed 0x0F000000).status = .running ∧
    (placed 0x0F000000).pc.toNat < (placed 0x0F000000).len ∧ (placed 0x0F000000).SlotAtPc ⟨0x0F, 0, 0, 0⟩ :=
  ⟨by intro o; cases o <;> decide, by intro o; cases o <;> decide, rfl, by decide, ⟨rfl, rfl, rfl, rfl⟩⟩
theorem witness_HaltedHasNoStep :
    ({ base with status := .halted none } : State).status = .halted none ∧
    ({ base with status := .halted (some .stackOverflow) } : State).status = .halted (some .stackOverflow) := by decide

/-- A step that raises each of the four errors that occur. -/
theorem witness_ErrorStepCommitsNothing :
    (∃ t, step (placed 0x0C000000) = .next t ∧ t.status = .halted (some .stackUnderflow)) ∧
    (∃ t, step (placed 0x89000400) = .next t ∧ t.status = .halted (some .outOfBoundsJump)) ∧
    (∃ t, step (placed 0x0F000000) = .next t ∧ t.status = .halted (some .invalidInstruction)) ∧
    (∃ t, step { placed 0x8B000500 with stackCapacity := some 0 } = .next t ∧
      t.status = .halted (some .stackOverflow)) :=
  ⟨⟨_, rfl, rfl⟩, ⟨_, rfl, rfl⟩, ⟨_, rfl, rfl⟩, ⟨_, rfl, rfl⟩⟩
theorem witness_ErrorPriorityIsTheStepsOrder :
    (∀ i, decode ⟨0x0F, 0, 0, 0⟩ ≠ .ok i) ∧
    decode ⟨0xF1, 0, 0, 0⟩ = .ok (.add 0 .pop .pop) ∧ (placedOn 0xF1000000 [7]).SlotAtPc ⟨0xF1, 0, 0, 0⟩ ∧
    (placedOn 0xF1000000 [7]).stack.length < popDemand (.add 0 .pop .pop) ∧
    decode ⟨0xC9, 0, 0, 0⟩ = .ok (.call .pop) ∧ popDemand (.call .pop) ≤ (placedOn 0xC9000000 [4]).stack.length ∧
    (∃ t, step (placedOn 0xC9000000 [4]) = .next t ∧ t.status = .halted (some .outOfBoundsJump)) :=
  ⟨fun i h => (by
      rw [show decode ⟨0x0F, 0, 0, 0⟩ = .error .reservedOperation from by decide] at h; cases h),
    by decide, ⟨rfl, rfl, rfl, rfl⟩, by decide, by decide, by decide, ⟨_, rfl, rfl⟩⟩

/-- For the statements about a step that answers a next state: the end of the buffer, a completed instruction, a faulting
one, `stop`, a taken jump. -/
theorem witness_steps :
    (∃ t, step State.reset = .next t ∧ State.reset.len ≤ State.reset.pc.toNat ∧ t.status = .halted none) ∧
    (∃ t, step (placed 0x0D000000) = .next t ∧ (∀ e, t.status ≠ .halted (some e)) ∧
      (placed 0x0D000000).pc.toNat < (placed 0x0D000000).len) ∧
    (∃ t, step (placed 0x0C000000) = .next t ∧ t.status = .halted (some .stackUnderflow)) ∧
    (∃ t, step (placed 0x0E000000) = .next t ∧ t.status = .halted none ∧
      (placed 0x0E000000).pc.toNat < (placed 0x0E000000).len) ∧
    (∃ t, step (placed 0x0A000000) = .next t ∧ t.pc = (placed 0x0A000000).pc ∧ t.status = .running) :=
  ⟨⟨_, rfl, by decide, rfl⟩, ⟨_, rfl, fun e h => (by cases h), by decide⟩, ⟨_, rfl, rfl⟩, ⟨_, rfl, rfl, by decide⟩,
    ⟨_, rfl, rfl, rfl⟩⟩
theorem witness_ObserversDoNotChangeExecution :
    (placed 0x0D000000).hideObservers = ({ placed 0x0D000000 with mode := debugMode, instret := 9 } : State).hideObservers ∧
    placed 0x0D000000 ≠ { placed 0x0D000000 with mode := debugMode, instret := 9 } := by decide
theorem witness_ComparisonFlagIsReadByNothing :
    (placed 0x66000500).hideCmpf = ({ placed 0x66000500 with cmpf := true } : State).hideCmpf ∧
    ∃ t, step { placed 0x66000500 with cmpf := true } = .next t ∧ t.cmpf ≠ true :=
  ⟨by decide, _, rfl, by decide⟩
theorem witness_StatusWordHasItsFields :
    base.status = .running ∧ ∃ t, step (placed 0x0C000000) = .next t ∧ t.status.errCode ≠ (placed 0x0C000000).status.errCode :=
  ⟨rfl, _, rfl, by decide⟩

/-- A Running state that meets the invariant and is not the state after reset: `nop` in a buffer of one slot. -/
theorem witness_invariant :
    (placed 0x0D000000).Inv ∧ (placed 0x0D000000).status = .running ∧ ∃ t, step (placed 0x0D000000) = .next t := by
  refine ⟨⟨by decide, by decide, by decide, by decide, by decide, fun a => ?_, fun n h => (by cases h), by decide,
    fun h => (by cases h), by decide, fun _ => rfl, fun h => (by cases h), fun r h => (by cases h)⟩, rfl, _, rfl⟩
  rcases a with _ | _ | _ | _ | a
  · rfl
  · rfl
  · rfl
  · rfl
  · rw [show (placed 0x0D000000).mem = [(0, 0x0D), (1, 0), (2, 0), (3, 0)] from rfl,
      show (placed 0x0D000000).len = 4 from rfl]
    simp [Memory.read]
/-- An accepted reset: with DEBUG_MODE on, from a Halted state, and with the empty buffer. -/
theorem witness_resets :
    (∃ t, hostReset [0x0D, 0, 0, 0] (Vector.replicate 16 7) debugMode { base with status := .halted (some .stackUnderflow) } =
      .next t) ∧
    (∃ t, hostReset [] defaultInitRegs defaultMode base = .next t) := ⟨⟨_, rfl⟩, ⟨_, rfl⟩⟩

theorem witness_sources :
    (State.withStack base [5, 7]).stack = 7 :: [5] ∧
    evalSources .pop .pop (State.withStack base [5, 7]) = some (7, 5, []) ∧
    evalSources .pop (.reg 1) (State.withStack base [5]) = some (5, 0, []) ∧
    evalSources .pop .pop (State.withStack base [5]) = none := by decide

/-! For each instruction: sources that evaluate, too few elements where there is a Pop, and a slot that decodes to it. -/

theorem witness_mov :
    evalSource (.imm 0xFFFF) base = some (0xFFFF, []) ∧ base.stack.length < popCount [Operand.pop] ∧
    decode ⟨0xC0, 0xF0, 0, 0⟩ = .ok (.mov 15 .pop) := by decide
theorem witness_two_sources :
    evalSources (.reg 1) (.imm 0x8000) base = some (0, 0x8000, []) ∧
    (State.withStack base [5]).stack.length < popCount [Operand.pop, .pop] ∧
    decode ⟨0xF1, 0xF0, 0, 0⟩ = .ok (.add 15 .pop .pop) ∧ decode ⟨0x62, 0x01, 0x00, 0x80⟩ = .ok (.sub 0 (.reg 1) (.imm 0x8000)) ∧
    decode ⟨0x93, 0x10, 1, 0⟩ = .ok (.lt 1 (.imm 1) (.reg 0)) ∧ decode ⟨0xE4, 0x10, 1, 0⟩ = .ok (.gt 1 .pop (.imm 1)) ∧
    decode ⟨0xD5, 0x12, 0, 0⟩ = .ok (.lteq 1 .pop (.reg 2)) ∧ decode ⟨0x56, 0x12, 0, 0⟩ = .ok (.eq (.reg 1) (.reg 2)) := by
  decide
/-- Taken to the last slot, taken to LEN, taken to an offset that is no multiple of 4, and not taken to a bad target. -/
theorem witness_jmpt :
    evalSources (.reg 1) (.imm 28) (State.withReg base 1 0x8000) = some (0x8000, 28, []) ∧
    (28#16).toNat < base.len ∧ (28#16).toNat % 4 = 0 ∧
    evalSources (.reg 1) (.imm 32) (State.withReg base 1 1) = some (1, 32, []) ∧ ¬ (32#16).toNat < base.len ∧
    evalSources (.reg 1) (.imm 30) (State.withReg base 1 1) = some (1, 30, []) ∧ ¬ (30#16).toNat % 4 = 0 ∧
    evalSources (.reg 1) (.imm 0xFFFF) base = some (0, 0xFFFF, []) ∧
    base.stack.length < popCount [Operand.reg 1, .pop] ∧
    decode ⟨0x67, 0x10, 0x20, 0⟩ = .ok (.jmpt (.reg 1) (.imm 32)) := by decide
theorem witness_jmpf :
    evalSources (.reg 1) (.imm 28) base = some (0, 28, []) ∧ evalSources (.reg 1) (.imm 32) base = some (0, 32, []) ∧
    evalSources (.reg 1) (.imm 0xFFFF) (State.withReg base 1 1) = some (1, 0xFFFF, []) ∧
    base.stack.length < popCount [Operand.pop, .pop] ∧
    decode ⟨0x68, 0x10, 0x20, 0⟩ = .ok (.jmpf (.reg 1) (.imm 32)) := by decide
theorem witness_call :
    evalSource (.reg 15) (State.withReg base 15 28) = some (28, []) ∧ evalSource (.imm 32) base = some (32, []) ∧
    base.stack.length < popCount [Operand.pop] ∧ decode ⟨0x49, 0xF0, 0, 0⟩ = .ok (.call (.reg 15)) := by decide
theorem witness_ret :
    ((State.withReg base 15 28).readReg 15).toNat < base.len ∧ ((State.withReg base 15 28).readReg 15).toNat % 4 = 0 ∧
    ¬ ((State.withReg base 15 32).readReg 15).toNat < base.len ∧
    ¬ ((State.withReg base 15 30).readReg 15).toNat % 4 = 0 ∧ decode ⟨0x0A, 0, 0, 0⟩ = .ok .ret := by decide
/-- One element below the bound, at the bound, and `push pop` on the empty stack. -/
theorem witness_push :
    evalSource (.imm 5) { State.withStack base [1] with stackCapacity := some 2 } = some (5, [1]) ∧
    evalSource (.imm 5) { State.withStack base [1, 2] with stackCapacity := some 2 } = some (5, [2, 1]) ∧
    base.stack.length < popCount [Operand.pop] ∧ base.stackCapacity = none ∧
    decode ⟨0x8B, 0, 5, 0⟩ = .ok (.push (.imm 5)) := by decide
theorem witness_pop_nop_stop :
    (State.withStack base [5, 7]).stack = 7 :: [5] ∧ base.stack = [] ∧ decode ⟨0x0C, 0, 0, 0⟩ = .ok .pop ∧
    decode ⟨0x0D, 0, 0, 0⟩ = .ok .nop ∧ decode ⟨0x0E, 0, 0, 0⟩ = .ok .stop := by decide
theorem witness_TransferTargetsAreChecked :
    Transfers (State.withReg base 1 1) (.jmpt (.reg 1) (.imm 28)) 28 ∧ Transfers base (.jmpf (.reg 1) (.imm 32)) 32 ∧
    Transfers base (.call (.imm 30)) 30 ∧ Transfers base .ret 0 ∧ (28#16).toNat < base.len ∧ base.len ≤ (32#16).toNat ∧
    (30#16).toNat % 4 ≠ 0 :=
  ⟨.jmpt (st := []) (vc := 1) rfl (by decide), .jmpf (st := []) rfl rfl, .call (st := []) rfl, .ret, by decide, by decide,
    by decide⟩
theorem witness_StackIsLastInFirstOut :
    (Operand.reg 1).isPop = false ∧ evalSource (.reg 1) base = some (0, base.stack) ∧
    ({ base with stackCapacity := some 2 } : State).stack.length + 2 ≤ 2 ∧
    evalSource .pop (State.withStack base [5]) = some (5, []) ∧
    ∃ t, exec (.push .pop) (State.withStack base [5]) = .next t ∧ ∀ e, t.status ≠ .halted (some e) :=
  ⟨by decide, by decide, by decide, by decide, _, rfl, fun e h => (by cases h)⟩

/-- Lengths that reset accepts and refuses, at the bounds. -/
theorem witness_ResetSetsTheState :
    ([] : List Byte).length % 4 = 0 ∧ (List.replicate 65532 (0 : Byte)).length % 4 = 0 ∧
    (List.replicate 65532 (0 : Byte)).length ≤ 65532 ∧ 65532 < (List.replicate 65536 (0 : Byte)).length ∧
    (List.replicate 65536 (0 : Byte)).length % 4 = 0 ∧ ([0, 0, 0] : List Byte).length % 4 ≠ 0 := by
  simp only [List.length_replicate]; decide
theorem witness_HostReadoutsAreGated : ((-1 : Int) < 0 ∨ 16 ≤ (-1 : Int)) ∧ ((16 : Int) < 0 ∨ 16 ≤ (16 : Int)) := by decide

/-- An accepted source with a label between its instructions and one at its end. -/
theorem witness_AssembledLengthAndLabelOffsets :
    assemble (text "nop\nx:\nnop\ny:") = .ok [0x0D, 0, 0, 0, 0x0D, 0, 0, 0] ∧
    utf8Decode (text "nop\nx:\nnop\ny:") = some "nop\nx:\nnop\ny:".toList ∧
    DeclaresAfter (sourceLines "nop\nx:\nnop\ny:".toList) [.instruction "nop".toList []] "x".toList ∧
    DeclaresAfter (sourceLines "nop\nx:\nnop\ny:".toList)
      [.instruction "nop".toList [], .label "x:".toList, .instruction "nop".toList []] "y".toList :=
  ⟨by decide, by decide, ⟨"x:".toList, [.instruction "nop".toList [], .label "y:".toList], by decide, by decide⟩,
    ⟨"y:".toList, [], by decide, by decide⟩⟩
theorem witness_EmptySourceGivesEmptyBuffer :
    utf8Decode (text "; c\nx:\n") = some "; c\nx:\n".toList ∧
    (∀ m ops, LineKind.instruction m ops ∉ sourceLines "; c\nx:\n".toList) ∧
    pass1 1 Layout.start (sourceLines "; c\nx:\n".toList) = .ok { sym := [(['x'], 0)], off := 0 } :=
  ⟨by decide, fun m ops h => by
    rw [show sourceLines "; c\nx:\n".toList = [.empty, .label "x:".toList] from by decide] at h; simp at h, by decide⟩
theorem witness_DuplicateLabelIsSyntaxError :
    utf8Decode (text "x:\nnop\nx:") = some "x:\nnop\nx:".toList ∧
    DeclaresAfter (sourceLines "x:\nnop\nx:".toList) [] "x".toList ∧
    DeclaresAfter (sourceLines "x:\nnop\nx:".toList) [.label "x:".toList, .instruction "nop".toList []] "x".toList :=
  ⟨by decide, ⟨"x:".toList, [.instruction "nop".toList [], .label "x:".toList], by decide, by decide⟩,
    ⟨"x:".toList, [], by decide, by decide⟩⟩
theorem witness_UndeclaredLabelNeverAssembles :
    utf8Decode (text "jmpt r1 nowhere") = some "jmpt r1 nowhere".toList ∧
    LineKind.instruction "jmpt".toList ["r1".toList, "nowhere".toList] ∈ sourceLines "jmpt r1 nowhere".toList ∧
    isIdentifier "nowhere".toList = true ∧ isRegisterForm "nowhere".toList = false ∧
    (∀ before, ¬ DeclaresAfter (sourceLines "jmpt r1 nowhere".toList) before "nowhere".toList) ∧
    lookupLabel [("x".toList, 65532)] "x".toList = some 65532 ∧ lookupLabel [] "x".toList = none :=
  ⟨by decide, by decide, by decide, by decide, fun before ⟨tok, rest, h, _⟩ => by
    have hm : LineKind.label tok ∈ sourceLines "jmpt r1 nowhere".toList := h ▸ by simp
    rw [show sourceLines "jmpt r1 nowhere".toList =
      [.instruction "jmpt".toList ["r1".toList, "nowhere".toList]] from by decide] at hm
    simp at hm, by decide, by decide⟩
theorem witness_LineErrorsComeInOrder :
    (∀ o, "MOV".toList ≠ (mnemonicOf o).toList) ∧
    ["r1".toList].length ≠ (if Op.mov.hasDst then 1 else 0) + Op.mov.nSrc ∧
    classifyAll [] ["r16".toList, "r1,".toList] = .error (.syntaxError .badRegister) ∧
    classifyAll [] ["pop".toList, "r1".toList] = .ok [.pop, .reg 1] ∧
    classifyAll [] ["r0".toList, "r1".toList, "r2".toList] = .ok ((Instr.add 0 (.reg 1) (.reg 2)).dst.toList.map Operand.reg ++
      (Instr.add 0 (.reg 1) (.reg 2)).sources.1.toList ++ (Instr.add 0 (.reg 1) (.reg 2)).sources.2.toList) :=
  ⟨by intro o; cases o <;> decide, by decide, by decide, by decide, by decide⟩

/-- A source of `n` lines `nop`. -/
def nops (n : Nat) : List Byte :=
  match n with
  | 0 => []
  | k + 1 => 0x6E :: 0x6F :: 0x70 :: 0x0A :: nops k

/-- The text of that source. -/
def nopsText (n : Nat) : List Char :=
  match n with
  | 0 => []
  | k + 1 => 'n' :: 'o' :: 'p' :: '\n' :: nopsText k

theorem utf8Decode_nops (n : Nat) : utf8Decode (nops n) = some (nopsText n) := by
  induction n with
  | zero => rfl
  | succ k ih =>
    simp only [utf8Decode] at ih
    simp [utf8Decode, nops, nopsText, utf8Go, ih]

theorem pass1_nops (k : Nat) (ly : Layout) (n : Nat) :
    pass1 k ly (sourceLines (nopsText n)) = .ok { ly with off := ly.off + 4 * n } := by
  induction n generalizing k ly with
  | zero => rfl
  | succ n ih =>
    have h : sourceLines (nopsText (n + 1)) = .instruction "nop".toList [] :: sourceLines (nopsText n) := rfl
    rw [h]
    simp only [pass1, pass1Line, ih, Config.slotBytes]
    congr 2; omega

/-- One line too many, and a source that is accepted. -/
theorem witness_LargeProgramsAreRefused :
    utf8Decode (nops 16384) = some (nopsText 16384) ∧
    (∃ ly, pass1 1 Layout.start (sourceLines (nopsText 16384)) = .ok ly ∧ 65532 < ly.off) ∧
    assemble (text "x:\nnop") = .ok [0x0D, 0, 0, 0] ∧
    pass1 1 Layout.start (sourceLines "x:\nnop".toList) = .ok { sym := [(['x'], 0)], off := 4 } :=
  ⟨utf8Decode_nops 16384, ⟨_, pass1_nops 1 Layout.start 16384, by decide⟩, by decide, by decide⟩
theorem witness_AssembledProgramsAlwaysDecode :
    assemble (text "nop") = .ok [0x0D, 0, 0, 0] ∧
    ∃ s t, hostReset [0x0D, 0, 0, 0] defaultInitRegs defaultMode base = .next s ∧ Steps s t ∧ t.pc = 4 :=
  ⟨by decide, _, _, rfl, .tail .refl rfl, rfl⟩
theorem witness_StepKeepsDecodablePrograms :
    (placed 0x0D000000).Inv ∧ (placed 0x0D000000).AllSlotsDecode ∧ ∃ t, step (placed 0x0D000000) = .next t := by
  refine ⟨witness_invariant.1, fun a h4 hl => ?_, _, rfl⟩
  have ha : a < 4 := hl
  obtain rfl : a = 0 := by omega
  exact ⟨⟨0x0D, 0, 0, 0⟩, .nop, rfl, by decide⟩

end Sys2Proof.Tests
end

/-! PROOFS. The binary format (spec/30_encoding.md R70 to R82). `Slot.Encodes` says field by field that a slot holds an
instruction, and `decode_eq_ok_iff` that the decoder answers exactly the instruction a slot holds. -/

namespace Sys2Proof

open Machine

/-! ### The fields of a slot as numbers (R70) -/

theorem Op.code_toNat (o : Op) : o.code.toNat = o.index.val := by cases o <;> rfl

theorem Kind.code_injective {k l : Kind} (h : k.code.toNat = l.code.toNat) : k = l := by
  rw [← Kind.ofCode_code k, BitVec.eq_of_toNat_eq h, Kind.ofCode_code]

namespace Slot

variable (s : Slot)

theorem opField_toNat : s.opField.toNat = s.b0.toNat % 16 := by
  simp [opField, BitVec.extractLsb'_toNat]

theorem kindA_code_toNat : s.kindA.code.toNat = s.b0.toNat / 64 := by
  have hb := s.b0.isLt
  rw [kindA, Kind.code_ofCode, BitVec.extractLsb'_toNat, Nat.shiftRight_eq_div_pow]
  omega

theorem kindB_code_toNat : s.kindB.code.toNat = s.b0.toNat / 16 % 4 := by
  rw [kindB, Kind.code_ofCode, BitVec.extractLsb'_toNat, Nat.shiftRight_eq_div_pow]

theorem rx_val : s.rx.val = s.b1.toNat / 16 := by
  have hb := s.b1.isLt
  change (s.b1.extractLsb' 4 4).toNat = _
  rw [BitVec.extractLsb'_toNat, Nat.shiftRight_eq_div_pow]
  omega

theorem ry_val : s.ry.val = s.b1.toNat % 16 := by
  change (s.b1.extractLsb' 0 4).toNat = _
  rw [BitVec.extractLsb'_toNat, Nat.shiftRight_zero]

theorem immField_toNat : s.immField.toNat = s.b2.toNat + 256 * s.b3.toNat := by
  have hb := s.b2.isLt
  rw [immField, BitVec.toNat_append, ← Nat.shiftLeft_add_eq_or_of_lt hb, Nat.shiftLeft_eq]
  omega

theorem b0_toNat : s.b0.toNat = s.kindA.code.toNat * 64 + s.kindB.code.toNat * 16 + s.opField.toNat := by
  rw [kindA_code_toNat, kindB_code_toNat, opField_toNat]
  omega

theorem b1_toNat : s.b1.toNat = s.rx.val * 16 + s.ry.val := by
  rw [rx_val, ry_val]
  omega

theorem immField_eq_zero_iff : s.immField = 0#16 ↔ s.b2 = 0 ∧ s.b3 = 0 := by
  have h := s.immField_toNat
  simp only [← BitVec.toNat_inj, BitVec.ofNat_eq_ofNat, BitVec.toNat_ofNat, Nat.zero_mod]
  omega

/-- A slot is its six fields put together. -/
theorem eq_iff_fields {s t : Slot} : s = t ↔
    s.opField = t.opField ∧ s.kindA = t.kindA ∧ s.kindB = t.kindB ∧ s.rx = t.rx ∧ s.ry = t.ry ∧
      s.immField = t.immField := by
  refine ⟨fun h => by simp [h], fun ⟨hop, hka, hkb, hrx, hry, himm⟩ => ?_⟩
  have h0 : s.b0 = t.b0 := BitVec.eq_of_toNat_eq (by rw [b0_toNat, b0_toNat, hop, hka, hkb])
  have h1 : s.b1 = t.b1 := BitVec.eq_of_toNat_eq (by rw [b1_toNat, b1_toNat, hrx, hry])
  have h2 : s.b2 = t.b2 := by rw [← immediate_low s.b3 s.b2, ← immediate_low t.b3 t.b2]; exact congrArg _ himm
  have h3 : s.b3 = t.b3 := by rw [← immediate_high s.b3 s.b2, ← immediate_high t.b3 t.b2]; exact congrArg _ himm
  cases s; cases t; simp_all

/-- R77's `B0 = KA*64 + KB*16 + OP`, read field by field. -/
theorem b0_toNat_eq_iff {s : Slot} {o : Op} {ka kb : Kind} :
    s.b0.toNat = ka.code.toNat * 64 + kb.code.toNat * 16 + o.index.val ↔
      s.opField = o.code ∧ s.kindA = ka ∧ s.kindB = kb := by
  refine ⟨fun h => ?_, fun ⟨hop, hka, hkb⟩ => by rw [b0_toNat, hop, hka, hkb, Op.code_toNat]⟩
  have hb := kb.code.isLt
  have ho := o.index.isLt
  refine ⟨BitVec.eq_of_toNat_eq ?_, Kind.code_injective ?_, Kind.code_injective ?_⟩
  · rw [opField_toNat, Op.code_toNat]; omega
  · rw [kindA_code_toNat]; omega
  · rw [kindB_code_toNat]; omega

end Slot

/-! ### Legality (R77) -/

theorem encodingProblem_eq_none_iff {op : Op} {ka kb : Kind} : encodingProblem op ka kb = none ↔
    sourcesMatch op.nSrc ka kb = true ∧ ¬ (ka = .imm ∧ kb = .imm) ∧ registerCount op ka kb ≤ 2 := by
  unfold encodingProblem
  split_ifs with hs hi hr <;> simp_all

theorem Op.nSrc_cases (o : Op) : o.nSrc = 0 ∨ o.nSrc = 1 ∨ o.nSrc = 2 := by cases o <;> decide

/-- R77 (b), by the number of sources. -/
theorem sourcesMatch_nSrc_iff (o : Op) (ka kb : Kind) : sourcesMatch o.nSrc ka kb = true ↔
    (o.nSrc = 0 → ka = .none ∧ kb = .none) ∧ (o.nSrc = 1 → ka ≠ .none ∧ kb = .none) ∧
      (o.nSrc = 2 → ka ≠ .none ∧ kb ≠ .none) := by
  obtain h | h | h := o.nSrc_cases <;> simp [h, sourcesMatch]

theorem registerCount_eq (o : Op) (ka kb : Kind) : registerCount o ka kb =
    (if o.hasDst then 1 else 0) + (if ka = .reg then 1 else 0) + (if kb = .reg then 1 else 0) := by
  simp only [registerCount, Bool.toNat, Bool.cond_eq_ite, beq_iff_eq]

/-- R77 (b) to (d) as the rule writes them. -/
theorem encodingProblem_eq_none_iff_rule (o : Op) (ka kb : Kind) : encodingProblem o ka kb = none ↔
    (o.nSrc = 0 → ka = .none ∧ kb = .none) ∧ (o.nSrc = 1 → ka ≠ .none ∧ kb = .none) ∧
      (o.nSrc = 2 → ka ≠ .none ∧ kb ≠ .none) ∧ ¬ (ka = .imm ∧ kb = .imm) ∧
      (if o.hasDst then 1 else 0) + (if ka = .reg then 1 else 0) + (if kb = .reg then 1 else 0) ≤ 2 := by
  rw [encodingProblem_eq_none_iff, sourcesMatch_nSrc_iff, registerCount_eq]
  simp only [and_assoc]

@[simp] theorem Kind.ofOperand_some_ne_none (a : Operand) : Kind.ofOperand (some a) ≠ .none := by
  cases a <;> simp [Kind.ofOperand]

@[simp] theorem Kind.ofOperand_some_eq_imm (a : Operand) : Kind.ofOperand (some a) = .imm ↔ a.isImm = true := by
  cases a <;> simp [Kind.ofOperand, Operand.isImm]

@[simp] theorem Kind.ofOperand_some_beq_reg (a : Operand) : (Kind.ofOperand (some a) == .reg) = a.isReg := by
  cases a <;> rfl

@[simp] theorem Kind.ofOperand_absent : Kind.ofOperand Option.none = .none := rfl

/-- With two sources, legality is R77 (c) and, where there is a destination, (d). -/
theorem encodingProblem_twoSources {o : Op} (h : o.nSrc = 2) (a b : Operand) :
    encodingProblem o (Kind.ofOperand (some a)) (Kind.ofOperand (some b)) = none ↔
      (oneImmediate a b && (!o.hasDst || twoRegisters a b)) = true := by
  rw [encodingProblem_eq_none_iff, h]
  simp only [sourcesMatch, registerCount, oneImmediate, twoRegisters, Kind.ofOperand_some_eq_imm,
    Kind.ofOperand_some_beq_reg]
  cases o.hasDst <;> cases a.isReg <;> cases b.isReg <;> simp [imp_iff_not_or]

/-- With one source, every form is legal. -/
theorem encodingProblem_oneSource {o : Op} (h : o.nSrc = 1) (a : Operand) :
    encodingProblem o (Kind.ofOperand (some a)) (Kind.ofOperand none) = none := by
  rw [encodingProblem_eq_none_iff, h]
  refine ⟨by simp [sourcesMatch], by simp, ?_⟩
  rw [registerCount, Kind.ofOperand_some_beq_reg, Kind.ofOperand_absent]
  cases o.hasDst <;> cases a.isReg <;> decide

/-- An instruction fits the slot exactly if its operation and kinds are legal. -/
theorem Instr.wf_iff_encodingProblem (i : Instr) : i.wf = true ↔
    encodingProblem i.op (Kind.ofOperand i.sources.1) (Kind.ofOperand i.sources.2) = none := by
  cases i with
  | mov _ a | call a | push a => exact iff_of_true rfl (encodingProblem_oneSource rfl a)
  | add _ a b | sub _ a b | lt _ a b | gt _ a b | lteq _ a b | eq a b | jmpt a b | jmpf a b =>
    simp only [Instr.op, Instr.sources]
    rw [encodingProblem_twoSources rfl]
    simp [Instr.wf, Op.hasDst]
  | ret | pop | nop | stop => decide

/-! ### The operands of an instruction (R71, R74, R76) -/

/-- One of the sources is the immediate `v`. -/
def Instr.HasImm (i : Instr) (v : Word) : Prop := i.sources.1 = some (.imm v) ∨ i.sources.2 = some (.imm v)

theorem Operand.immediate_eq_some_iff {o : Option Operand} {v : Word} :
    Operand.immediate o = some v ↔ o = some (.imm v) := by
  rcases o with _ | _ | _ | _ <;> simp [Operand.immediate]

theorem Operand.registers_length (o : Option Operand) :
    (Operand.registers o).length = (Kind.ofOperand o == .reg).toNat := by
  rcases o with _ | _ | _ | _ <;> rfl

theorem usesImm_iff (i : Instr) : usesImm i = true ↔ ∃ v, i.HasImm v := by
  simp only [usesImm, Bool.or_eq_true, Option.isSome_iff_exists, Operand.immediate_eq_some_iff, ← exists_or,
    Instr.HasImm]

theorem Instr.immediate_of_not_usesImm {i : Instr} (h : usesImm i = false) : i.immediate = 0#16 := by
  simp_all [usesImm, Instr.immediate]

/-- The immediate field holds the one IMM source's value: R77 (c) excludes a second. -/
theorem Instr.immediate_of_hasImm {i : Instr} {v : Word} (hwf : i.wf = true) (h : i.HasImm v) : i.immediate = v := by
  rcases h with h | h
  · simp [Instr.immediate, Operand.immediate_eq_some_iff.mpr h]
  · have honly : Operand.immediate i.sources.1 = none := by
      by_contra hne
      obtain ⟨w, hw⟩ := Option.ne_none_iff_exists'.mp hne
      have hboth := (encodingProblem_eq_none_iff.mp (i.wf_iff_encodingProblem.mp hwf)).2.1
      rw [Operand.immediate_eq_some_iff.mp hw, h] at hboth
      exact hboth ⟨rfl, rfl⟩
    simp [Instr.immediate, honly, Operand.immediate_eq_some_iff.mpr h]

theorem Instr.registers_length (i : Instr) :
    i.registers.length = registerCount i.op (Kind.ofOperand i.sources.1) (Kind.ofOperand i.sources.2) := by
  have hdst := (Laws.ShapeMatches.all i).1
  simp only [Instr.registers, registerCount, List.length_append, Operand.registers_length, ← hdst]
  cases i.dst <;> rfl

/-- R74: at most two register operands. -/
theorem Instr.registers_length_le {i : Instr} (h : i.wf = true) : i.registers.length ≤ 2 := by
  rw [i.registers_length]
  exact (encodingProblem_eq_none_iff.mp (i.wf_iff_encodingProblem.mp h)).2.2

/-! ### Taking operands from a slot (R78) -/

theorem takeDst_spec (hasDst : Bool) {regs : List RegIdx} (room : regs ≠ []) :
    (takeDst hasDst regs).1.isSome = hasDst ∧
      (takeDst hasDst regs).1.toList ++ (takeDst hasDst regs).2 = regs ∧
      hasDst.toNat + (takeDst hasDst regs).2.length = regs.length := by
  obtain ⟨r, rest, rfl⟩ := List.exists_cons_of_ne_nil room
  cases hasDst <;> simp [takeDst, Nat.add_comm]

theorem takeOperand_spec {k : Kind} (imm : Word) {regs : List RegIdx} (room : (k == .reg).toNat ≤ regs.length) :
    Kind.ofOperand (takeOperand k imm regs).1 = k ∧
      Operand.registers (takeOperand k imm regs).1 ++ (takeOperand k imm regs).2 = regs ∧
      ∀ v, (takeOperand k imm regs).1 = some (.imm v) → imm = v := by
  cases k with
  | none => exact ⟨rfl, rfl, fun _ h => by cases h⟩
  | imm => exact ⟨rfl, rfl, fun _ h => by cases h; rfl⟩
  | pop => exact ⟨rfl, rfl, fun _ h => by cases h⟩
  | reg =>
    cases regs with
    | nil => simp at room
    | cons r rest => exact ⟨rfl, rfl, fun _ h => by cases h⟩

theorem takeDst_append (d : Option RegIdx) (rest : List RegIdx) :
    takeDst d.isSome (d.toList ++ rest) = (d, rest) := by
  cases d <;> rfl

theorem takeOperand_append (o : Option Operand) {imm : Word} (rest : List RegIdx)
    (himm : ∀ v, o = some (.imm v) → imm = v) :
    takeOperand (Kind.ofOperand o) imm (Operand.registers o ++ rest) = (o, rest) := by
  rcases o with _ | _ | v | _
  case some.imm => rw [himm v rfl]; rfl
  all_goals rfl

/-- The parts of a slot with room for its register operands: they have the slot's kinds, and their registers, in the
order destination, A, B, are RX and RY from the front. -/
theorem Slot.parts_eq_iff {s : Slot} {op : Op} (room : registerCount op s.kindA s.kindB ≤ 2)
    {d : Option RegIdx} {a b : Option Operand} : s.parts op = (d, a, b) ↔
      d.isSome = op.hasDst ∧ Kind.ofOperand a = s.kindA ∧ Kind.ofOperand b = s.kindB ∧
      d.toList ++ Operand.registers a ++ Operand.registers b <+: [s.rx, s.ry] ∧
      ∀ v, a = some (.imm v) ∨ b = some (.imm v) → s.immField = v := by
  rw [parts_eq]
  constructor
  · intro h
    obtain ⟨hdst, hdregs, hdlen⟩ := takeDst_spec op.hasDst (List.cons_ne_nil s.rx [s.ry])
    generalize takeDst op.hasDst [s.rx, s.ry] = D at h hdst hdregs hdlen
    simp only [registerCount, List.length_cons, List.length_nil] at room hdlen
    obtain ⟨hka, haregs, haimm⟩ := takeOperand_spec (k := s.kindA) s.immField (regs := D.2) (by omega)
    generalize takeOperand s.kindA s.immField D.2 = A at h hka haregs haimm
    have halen := congrArg List.length haregs
    rw [List.length_append, Operand.registers_length, hka] at halen
    obtain ⟨hkb, hbregs, hbimm⟩ := takeOperand_spec (k := s.kindB) s.immField (regs := A.2) (by omega)
    generalize takeOperand s.kindB s.immField A.2 = B at h hkb hbregs hbimm
    simp only [Prod.mk.injEq] at h
    obtain ⟨rfl, rfl, rfl⟩ := h
    refine ⟨hdst, hka, hkb, ⟨B.2, ?_⟩, ?_⟩
    · rw [← hdregs, ← haregs, ← hbregs]; simp
    · rintro v (hv | hv)
      exacts [haimm v hv, hbimm v hv]
  · rintro ⟨hd, ha, hb, ⟨rest, hregs⟩, himm⟩
    rw [← hregs, ← hd, ← ha, ← hb, List.append_assoc, List.append_assoc, takeDst_append,
      takeOperand_append a _ fun v h => himm v (.inl h), takeOperand_append b _ fun v h => himm v (.inr h)]

/-! ### What decoding to an instruction means (R78) -/

/-- The slot holds instruction `i`: a form that fits, the operation and kinds in B0, the registers from RX on in the
order of R74, and the immediate, if there is one. -/
structure Slot.Encodes (s : Slot) (i : Instr) : Prop where
  wf : i.wf = true
  op : s.opField = i.op.code
  kindA : s.kindA = Kind.ofOperand i.sources.1
  kindB : s.kindB = Kind.ofOperand i.sources.2
  registers : i.registers <+: [s.rx, s.ry]
  immediate : ∀ v, i.HasImm v → s.immField = v

theorem Instr.build0_eq_some {j i : Instr} {d : Option RegIdx} {a b : Option Operand}
    (h : Instr.build0 j d a b = some i) : d = none ∧ a = none ∧ b = none ∧ i = j := by
  unfold Instr.build0 at h
  split at h <;> simp_all

theorem Instr.build1_eq_some {f : Operand → Instr} {i : Instr} {d : Option RegIdx} {a b : Option Operand}
    (h : Instr.build1 f d a b = some i) : ∃ x, d = none ∧ a = some x ∧ b = none ∧ i = f x := by
  unfold Instr.build1 at h
  split at h <;> simp_all

theorem Instr.build2_eq_some {f : Operand → Operand → Instr} {i : Instr} {d : Option RegIdx} {a b : Option Operand}
    (h : Instr.build2 f d a b = some i) : ∃ x y, d = none ∧ a = some x ∧ b = some y ∧ i = f x y := by
  unfold Instr.build2 at h
  split at h <;> simp_all

theorem Instr.build3_eq_some {f : RegIdx → Operand → Operand → Instr} {i : Instr} {d : Option RegIdx}
    {a b : Option Operand} (h : Instr.build3 f d a b = some i) :
    ∃ r x y, d = some r ∧ a = some x ∧ b = some y ∧ i = f r x y := by
  unfold Instr.build3 at h
  split at h <;> simp_all

theorem Instr.build_mov_eq_some {i : Instr} {d : Option RegIdx} {a b : Option Operand}
    (h : Instr.build .mov d a b = some i) : ∃ r x, d = some r ∧ a = some x ∧ b = none ∧ i = .mov r x := by
  simp only [Instr.build] at h
  split at h <;> simp_all

/-- Building puts the given parts into the instruction: the converse of `Laws.BuildsItself.all`. -/
theorem Instr.parts_of_build {op : Op} {d : Option RegIdx} {a b : Option Operand} {i : Instr}
    (h : Instr.build op d a b = some i) : i.op = op ∧ i.dst = d ∧ i.sources = (a, b) := by
  cases op with
  | mov =>
    obtain ⟨r, x, rfl, rfl, rfl, rfl⟩ := Instr.build_mov_eq_some h
    exact ⟨rfl, rfl, rfl⟩
  | add | sub | lt | gt | lteq =>
    obtain ⟨r, x, y, rfl, rfl, rfl, rfl⟩ := Instr.build3_eq_some h
    exact ⟨rfl, rfl, rfl⟩
  | eq | jmpt | jmpf =>
    obtain ⟨x, y, rfl, rfl, rfl, rfl⟩ := Instr.build2_eq_some h
    exact ⟨rfl, rfl, rfl⟩
  | call | push =>
    obtain ⟨x, rfl, rfl, rfl, rfl⟩ := Instr.build1_eq_some h
    exact ⟨rfl, rfl, rfl⟩
  | ret | pop | nop | stop =>
    obtain ⟨rfl, rfl, rfl, rfl⟩ := Instr.build0_eq_some h
    exact ⟨rfl, rfl, rfl⟩

/-- A slot decodes exactly if its operation and kinds are legal. -/
theorem exists_decode_eq_ok_iff {s : Slot} : (∃ i, decode s = .ok i) ↔
    ∃ op, Op.ofCode s.opField = some op ∧ encodingProblem op s.kindA s.kindB = none := by
  constructor
  · rintro ⟨i, h⟩
    obtain ⟨op, ho, hp, -⟩ := decode_ok_inv h
    exact ⟨op, ho, hp⟩
  · rintro ⟨op, ho, hp⟩
    obtain ⟨i, -, h⟩ := decode_legal ho hp
    exact ⟨i, h⟩

theorem Op.ofCode_eq_some_iff {c : BitVec 4} {o : Op} : Op.ofCode c = some o ↔ c = o.code :=
  ⟨fun h => (Op.code_of_ofCode h).symm, fun h => h ▸ Op.ofCode_code o⟩

/-- A slot decodes to the instruction that has its operation, where that is legal, and its parts. -/
theorem decode_eq_ok_iff_parts {s : Slot} {i : Instr} : decode s = .ok i ↔
    s.opField = i.op.code ∧ encodingProblem i.op s.kindA s.kindB = none ∧
      s.parts i.op = (i.dst, i.sources.1, i.sources.2) := by
  constructor
  · intro h
    obtain ⟨op, ho, hp, hb⟩ := decode_ok_inv h
    obtain ⟨rfl, hdst, hsrc⟩ := Instr.parts_of_build hb
    exact ⟨Op.ofCode_eq_some_iff.mp ho, hp, by simp [hdst, hsrc]⟩
  · rintro ⟨ho, hp, hparts⟩
    obtain ⟨j, hj, hd⟩ := decode_legal (Op.ofCode_eq_some_iff.mpr ho) hp
    rw [hparts, Laws.BuildsItself.all i] at hj
    rw [hd, Option.some.inj hj]

/-- The decoder answers exactly the instruction a slot holds. -/
theorem decode_eq_ok_iff {s : Slot} {i : Instr} : decode s = .ok i ↔ s.Encodes i := by
  rw [decode_eq_ok_iff_parts]
  constructor
  · rintro ⟨hop, hp, hparts⟩
    obtain ⟨-, hka, hkb, hregs, himm⟩ := (Slot.parts_eq_iff (encodingProblem_eq_none_iff.mp hp).2.2).mp hparts
    refine ⟨?_, hop, hka.symm, hkb.symm, hregs, himm⟩
    rwa [i.wf_iff_encodingProblem, hka, hkb]
  · rintro ⟨hwf, hop, hka, hkb, hregs, himm⟩
    have hp := i.wf_iff_encodingProblem.mp hwf
    rw [← hka, ← hkb] at hp
    exact ⟨hop, hp, (Slot.parts_eq_iff (encodingProblem_eq_none_iff.mp hp).2.2).mpr
      ⟨(Laws.ShapeMatches.all i).1, hka.symm, hkb.symm, hregs, himm⟩⟩

/-! ### Register lists that stand in RX and RY (R74) -/

section

variable {α : Type} {l : List α} {x y : α}

theorem isPrefix_pair_getD (z : α) (h : l.length ≤ 2) : l <+: [l[0]?.getD z, l[1]?.getD z] := by
  match l, h with
  | [], _ | [_], _ | [_, _], _ => simp

theorem isPrefix_pair_congr {x' y' : α} (h : l <+: [x, y]) (hx : 1 ≤ l.length → x' = x)
    (hy : 2 ≤ l.length → y' = y) : l <+: [x', y'] := by
  match l, h with
  | [], _ => simp
  | [_], h => simp_all
  | [_, _], h => simp_all
  | _ :: _ :: _ :: _, h => simp at h

theorem isPrefix_pair_getD_zero_eq_iff (z : α) (h : l <+: [x, y]) : l[0]?.getD z = x ↔ (l.length < 1 → x = z) := by
  match l, h with
  | [], _ => simp [eq_comm]
  | _ :: _, h => simp_all

theorem isPrefix_pair_getD_one_eq_iff (z : α) (h : l <+: [x, y]) : l[1]?.getD z = y ↔ (l.length < 2 → y = z) := by
  match l, h with
  | [], _ | [_], _ => simp [eq_comm]
  | _ :: _ :: _, h => simp_all

end

/-! ### The encoder (R79, R82) -/

/-- R82: the slot `Encode` writes for a form that fits holds that form. -/
theorem encode_encodes {i : Instr} (h : i.wf = true) : (encode i).Encodes i where
  wf := h
  op := encode_opField i
  kindA := encode_kindA i
  kindB := encode_kindB i
  registers := by
    rw [encode_rx, encode_ry]
    exact isPrefix_pair_getD 0 (Instr.registers_length_le h)
  immediate v hv := by rw [encode_immField, Instr.immediate_of_hasImm h hv]

theorem decode_encode {i : Instr} (h : i.wf = true) : decode (encode i) = .ok i :=
  decode_eq_ok_iff.mpr (encode_encodes h)

/-- R79: a slot that agrees in B0 and in the fields the instruction uses holds the same instruction. -/
theorem Slot.Encodes.of_usedFields {s s' : Slot} {i : Instr} (h : s.Encodes i) (hb0 : s'.b0 = s.b0)
    (hrx : 1 ≤ i.registers.length → s'.rx = s.rx) (hry : 2 ≤ i.registers.length → s'.ry = s.ry)
    (himm : usesImm i = true → s'.immField = s.immField) : s'.Encodes i where
  wf := h.wf
  op := by rw [← h.op, Slot.opField, Slot.opField, hb0]
  kindA := by rw [← h.kindA, Slot.kindA, Slot.kindA, hb0]
  kindB := by rw [← h.kindB, Slot.kindB, Slot.kindB, hb0]
  registers := isPrefix_pair_congr h.registers hrx hry
  immediate v hv := by rw [himm ((usesImm_iff i).mpr ⟨v, hv⟩), h.immediate v hv]

theorem Slot.Encodes.immediate_eq_iff {s : Slot} {i : Instr} (h : s.Encodes i) :
    i.immediate = s.immField ↔ (usesImm i = false → s.immField = 0#16) := by
  cases hu : usesImm i with
  | false => simp [Instr.immediate_of_not_usesImm hu, eq_comm]
  | true =>
    obtain ⟨v, hv⟩ := (usesImm_iff i).mp hu
    simp [Instr.immediate_of_hasImm h.wf hv, h.immediate v hv]

/-- R79: `Encode` gives back the slot exactly if the fields the instruction does not use are zero. -/
theorem Slot.Encodes.encode_eq_iff {s : Slot} {i : Instr} (h : s.Encodes i) : encode i = s ↔
    (i.registers.length < 1 → s.rx = 0) ∧ (i.registers.length < 2 → s.ry = 0) ∧
      (usesImm i = false → s.immField = 0#16) := by
  rw [Slot.eq_iff_fields, encode_opField, encode_kindA, encode_kindB, encode_rx, encode_ry, encode_immField,
    isPrefix_pair_getD_zero_eq_iff 0 h.registers, isPrefix_pair_getD_one_eq_iff 0 h.registers, h.immediate_eq_iff]
  simp [h.op, h.kindA, h.kindB]

/-! ### The table of R77 -/

/-- The pairs of kinds in the order of their codes. -/
def Kind.pairs : List (Kind × Kind) :=
  [.none, .reg, .imm, .pop].product [.none, .reg, .imm, .pop]

theorem Kind.mem_pairs (p : Kind × Kind) : p ∈ Kind.pairs := by
  obtain ⟨ka, kb⟩ := p
  cases ka <;> cases kb <;> decide

/-- The opcode byte of R77: KA, KB and OP put together. -/
def opcodeByte (o : Op) (p : Kind × Kind) : Byte := p.1.code ++ p.2.code ++ o.code

theorem eq_opcodeByte_iff {s : Slot} {o : Op} {p : Kind × Kind} :
    s.b0 = opcodeByte o p ↔ s.opField = o.code ∧ s.kindA = p.1 ∧ s.kindB = p.2 := by
  constructor
  · intro h
    simp only [Slot.opField, Slot.kindA, Slot.kindB, h, opcodeByte, opcodeByte_op, opcodeByte_kindA, opcodeByte_kindB,
      Kind.ofCode_code, and_self]
  · rintro ⟨hop, hka, hkb⟩
    rw [opcodeByte, ← hop, ← hka, ← hkb, Slot.kindA, Slot.kindB, Kind.code_ofCode, Kind.code_ofCode]
    exact (opcodeByte_split s.b0).symm

/-- Each row of the transcribed table holds the opcode bytes of the operation's legal pairs of kinds. -/
theorem legalB0_eq (o : Op) : legalB0 o =
    (Kind.pairs.filter fun p => encodingProblem o p.1 p.2 = none).map (opcodeByte o) := by
  cases o <;> decide

theorem mem_legalB0_iff {s : Slot} {o : Op} :
    s.b0 ∈ legalB0 o ↔ s.opField = o.code ∧ encodingProblem o s.kindA s.kindB = none := by
  simp only [legalB0_eq, List.mem_map, List.mem_filter, Kind.mem_pairs, true_and, decide_eq_true_eq,
    eq_comm (b := s.b0), eq_opcodeByte_iff]
  constructor
  · rintro ⟨p, hp, hop, hka, hkb⟩
    exact ⟨hop, hka ▸ hkb ▸ hp⟩
  · rintro ⟨hop, hp⟩
    exact ⟨(s.kindA, s.kindB), hp, hop, rfl, rfl⟩

/-- R77: the rows of the table are the opcode bytes that decode. -/
theorem exists_decode_with_op_iff {s : Slot} {o : Op} :
    (∃ i, decode s = .ok i ∧ i.op = o) ↔ s.b0 ∈ legalB0 o := by
  rw [mem_legalB0_iff]
  constructor
  · rintro ⟨i, hd, rfl⟩
    obtain ⟨hop, hp, -⟩ := decode_eq_ok_iff_parts.mp hd
    exact ⟨hop, hp⟩
  · rintro ⟨hop, hp⟩
    obtain ⟨i, hi, hd⟩ := decode_legal (Op.ofCode_eq_some_iff.mpr hop) hp
    exact ⟨i, hd, (Instr.parts_of_build hi).1⟩

/-- R80: a slot whose opcode byte is in no row decodes to no instruction. -/
theorem decode_ne_ok_of_b0_illegal {s : Slot} (h : ∀ o, s.b0 ∉ legalB0 o) (i : Instr) : decode s ≠ .ok i :=
  fun hd => h i.op (exists_decode_with_op_iff.mp ⟨i, hd, rfl⟩)

/-! ### The obligations of spec/30_encoding.md -/

/-- Settles O1: the bytes are the fields `Encode` fills, and the slot it writes holds the instruction. -/
theorem encodeFillsTheSlotAndDecodesBack : Obligations.EncodeFillsTheSlotAndDecodesBack := by
  intro i
  refine ⟨?_, ?_, fun v hv hwf => ?_, fun hu => ?_, decode_encode⟩
  · rw [Slot.b0_toNat, encode_kindA, encode_kindB, encode_opField, Op.code_toNat]
  · rw [Slot.b1_toNat, encode_rx, encode_ry]
  · have himm := (encode i).immField_toNat
    rw [encode_immField, Instr.immediate_of_hasImm hwf hv] at himm
    have hlow := (encode i).b2.isLt
    omega
  · rw [← Slot.immField_eq_zero_iff, encode_immField, Instr.immediate_of_not_usesImm hu]

/-- Settles O2: the table's rows are computed from the rule's clauses. -/
theorem legalOpcodeBytesAreTheTable : Obligations.LegalOpcodeBytesAreTheTable := by
  refine ⟨fun _ _ => exists_decode_with_op_iff, fun s => ?_, by decide, by decide⟩
  simp only [exists_decode_eq_ok_iff, Op.ofCode_eq_some_iff, Slot.b0_toNat_eq_iff,
    ← encodingProblem_eq_none_iff_rule]
  constructor
  · rintro ⟨o, hop, hp⟩
    exact ⟨o, s.kindA, s.kindB, ⟨hop, rfl, rfl⟩, hp⟩
  · rintro ⟨o, _, _, ⟨hop, rfl, rfl⟩, hp⟩
    exact ⟨o, hop, hp⟩

/-- Settles O3: a slot that decodes to an instruction holds it, field by field. -/
theorem decodeFillsOperandsInOrder : Obligations.DecodeFillsOperandsInOrder := by
  intro s i hd
  obtain ⟨hwf, hop, hka, hkb, hregs, himm⟩ := decode_eq_ok_iff.mp hd
  refine ⟨Instr.registers_length_le hwf, ?_, ?_, ?_, ?_, fun v hv => ?_, hwf⟩
  · rw [← s.rx_val, ← s.ry_val, ← List.map_singleton, ← List.map_cons, ← List.map_take,
      ← List.prefix_iff_eq_take.mp hregs]
  · rw [← Op.code_toNat, ← hop, Slot.opField_toNat]
  · rw [← hka, Slot.kindA_code_toNat]
  · rw [← hkb, Slot.kindB_code_toNat]
  · rw [← himm v hv, Slot.immField_toNat]

/-- Settles O4: what a slot holds depends on its used fields, and `Encode` writes the others as zero. -/
theorem unusedFieldsAreIgnoredAndWrittenZero : Obligations.UnusedFieldsAreIgnoredAndWrittenZero := by
  constructor
  · intro s s' i hd hb0 hrx hry himm
    refine decode_eq_ok_iff.mpr ((decode_eq_ok_iff.mp hd).of_usedFields hb0 (fun h => ?_) (fun h => ?_) fun h => ?_)
    · rw [Fin.ext_iff, Slot.rx_val, Slot.rx_val, hrx h]
    · rw [Fin.ext_iff, Slot.ry_val, Slot.ry_val, hry h]
    · rw [Slot.immField, Slot.immField, (himm h).1, (himm h).2]
  · intro s i hd
    rw [(decode_eq_ok_iff.mp hd).encode_eq_iff, Fin.ext_iff, Fin.ext_iff, Slot.rx_val, Slot.ry_val,
      Slot.immField_eq_zero_iff]
    rfl

/-- Settles O8: the step's branch for a slot that does not decode. -/
theorem illegalSlotRaisesInvalidInstruction : Obligations.IllegalSlotRaisesInvalidInstruction := by
  intro s sl hb0
  have hne := decode_ne_ok_of_b0_illegal hb0
  refine ⟨hne, fun hr hl hslot => ?_⟩
  cases hd : decode sl with
  | ok i => exact absurd hd (hne i)
  | error d => exact step_invalid hr (atEnd_eq_false.mpr hl) (fetchSlot_eq_some.mpr hslot) hd

end Sys2Proof

/-! PROOFS. The assembler (spec/40_assembler.md R110 to R133). Pass 1 counts the INSTRUCTION lines and binds each label once, at
the offset where it is declared; pass 2 gives one instruction for each INSTRUCTION line. -/

namespace Sys2Proof.Machine

/-! ### Counting INSTRUCTION lines -/

theorem instrLines_cons (l : LineKind) (rest : List LineKind) :
    instrLines (l :: rest) = instrLines [l] + instrLines rest := by
  cases l <;> simp [instrLines, Nat.add_comm]

/-! ### Pass 1: the offset (R116) -/

theorem pass1Line_off {ly ly' : Layout} {l : LineKind} (h : pass1Line ly l = .ok ly') :
    ly'.off = ly.off + 4 * instrLines [l] := by
  obtain ⟨rfl, h1⟩ | ⟨_, _, rfl, h1⟩ | ⟨_, _, rfl, -, -, h1⟩ | ⟨_, _, -, h1⟩ := pass1Line_cases ly l <;>
    rw [h1] at h <;> cases h <;> rfl

/-- Pass 1 ends four bytes further for each INSTRUCTION line. -/
theorem pass1_off {n : Nat} {ly ly' : Layout} {lines : List LineKind} (h : pass1 n ly lines = .ok ly') :
    ly'.off = ly.off + 4 * instrLines lines := by
  induction lines generalizing n ly with
  | nil => cases h; rfl
  | cons l rest ih =>
    obtain ⟨mid, hline, hrest⟩ := pass1_cons h
    rw [ih hrest, pass1Line_off hline, instrLines_cons l rest]
    omega

/-! ### Pass 1: the symbol table (R117) -/

/-- A property of the layout that one line keeps holds along pass 1. -/
theorem pass1_invariant {P : Layout → Prop}
    (hline : ∀ (ly ly' : Layout) (l : LineKind), P ly → pass1Line ly l = .ok ly' → P ly')
    {n : Nat} {ly ly' : Layout} {lines : List LineKind} (h : pass1 n ly lines = .ok ly') (hP : P ly) : P ly' := by
  induction lines generalizing n ly with
  | nil => cases h; exact hP
  | cons l rest ih =>
    obtain ⟨mid, hmid, hrest⟩ := pass1_cons h
    exact ih hrest (hline _ _ _ hP hmid)

/-- Pass 1 leaves every binding it has made. -/
theorem pass1_keeps {n : Nat} {ly ly' : Layout} {lines : List LineKind} (h : pass1 n ly lines = .ok ly')
    {name : Token} {off : Nat} (hs : lookupLabel ly.sym name = some off) : lookupLabel ly'.sym name = some off :=
  pass1_invariant (P := fun ly => lookupLabel ly.sym name = some off) (fun _ _ _ hs hl => pass1Line_keeps hl hs) h hs

/-- Every bound offset is at most the running offset. -/
def Layout.OffsetsBounded (ly : Layout) : Prop := ∀ name off, lookupLabel ly.sym name = some off → off ≤ ly.off

theorem Layout.offsetsBounded_start : Layout.start.OffsetsBounded := by
  intro name off h
  cases h

theorem pass1Line_offsetsBounded {ly ly' : Layout} {l : LineKind} (hb : ly.OffsetsBounded)
    (h : pass1Line ly l = .ok ly') : ly'.OffsetsBounded := by
  intro name off hs
  obtain ⟨-, h1⟩ | ⟨_, _, -, h1⟩ | ⟨_, declared, -, -, -, h1⟩ | ⟨_, _, -, h1⟩ := pass1Line_cases ly l <;>
    rw [h1] at h <;> cases h
  · exact hb name off hs
  · exact Nat.le_add_right_of_le (hb name off hs)
  · rw [lookupLabel_append, Option.or_eq_some_iff] at hs
    obtain hold | ⟨-, hnew⟩ := hs
    · exact hb name off hold
    · simp only [lookupLabel, Option.ite_none_right_eq_some, Option.some.injEq] at hnew
      exact hnew.2.ge

theorem pass1_offsetsBounded {n : Nat} {ly ly' : Layout} {lines : List LineKind} (h : pass1 n ly lines = .ok ly')
    (hb : ly.OffsetsBounded) : ly'.OffsetsBounded :=
  pass1_invariant (fun _ _ _ => pass1Line_offsetsBounded) h hb

/-- A pass 1 that accepts lines in two parts. -/
theorem pass1_append {n : Nat} {ly ly' : Layout} {xs ys : List LineKind} (h : pass1 n ly (xs ++ ys) = .ok ly') :
    ∃ mid, pass1 n ly xs = .ok mid ∧ pass1 (n + xs.length) mid ys = .ok ly' := by
  induction xs generalizing n ly with
  | nil => exact ⟨ly, rfl, h⟩
  | cons l rest ih =>
    obtain ⟨next, hline, hrest⟩ := pass1_cons h
    obtain ⟨mid, hxs, hys⟩ := ih hrest
    refine ⟨mid, by simp only [pass1, hline, hxs], ?_⟩
    rwa [List.length_cons, Nat.add_comm rest.length, ← Nat.add_assoc]

/-- An accepted LABEL line declares a new name. -/
theorem pass1Line_label {ly ly' : Layout} {tok name : Token} (h : pass1Line ly (.label tok) = .ok ly')
    (hn : labelName tok = some name) :
    lookupLabel ly.sym name = none ∧ lookupLabel ly'.sym name = some ly.off := by
  obtain ⟨hl, -⟩ | ⟨_, _, hl, -⟩ | ⟨_, _, hl, hn', hnew, h1⟩ | ⟨_, _, -, h1⟩ := pass1Line_cases ly (.label tok)
  · cases hl
  · cases hl
  · cases hl
    cases hn'.symm.trans hn
    cases h1.symm.trans h
    exact ⟨hnew, by simp [lookupLabel_append, hnew, lookupLabel]⟩
  · cases h1.symm.trans h

/-- What an accepting pass 1 does with a declared label: it is unbound before its line, and bound at the end to the offset
that pass 1 has reached there. -/
theorem pass1_declares {n : Nat} {ly ly' : Layout} {lines before : List LineKind} {name : Token}
    (h : pass1 n ly lines = .ok ly') (hd : DeclaresAfter lines before name) :
    ∃ mid, pass1 n ly before = .ok mid ∧ lookupLabel mid.sym name = none ∧
      lookupLabel ly'.sym name = some mid.off := by
  obtain ⟨tok, after, rfl, hn⟩ := hd
  obtain ⟨mid, hbefore, htail⟩ := pass1_append h
  obtain ⟨next, hline, hafter⟩ := pass1_cons htail
  obtain ⟨hnew, hbound⟩ := pass1Line_label hline hn
  exact ⟨mid, hbefore, hnew, pass1_keeps hafter hbound⟩

/-! ### Two declarations of one label (R117) -/

/-- Of two declarations at different lines, one stands before the other. -/
theorem DeclaresAfter.eq_or_nested {lines before before' : List LineKind} {name : Token}
    (h : DeclaresAfter lines before name) (h' : DeclaresAfter lines before' name) :
    before = before' ∨ DeclaresAfter before' before name ∨ DeclaresAfter before before' name := by
  obtain ⟨tok, after, hlines, hn⟩ := h
  obtain ⟨tok', after', hlines', hn'⟩ := h'
  obtain ⟨between, hb, ht⟩ | ⟨between, hb, ht⟩ := List.append_eq_append_iff.mp (hlines.symm.trans hlines')
  · cases between with
    | nil => exact .inl (by simpa using hb.symm)
    | cons l between => cases ht; exact .inr (.inl ⟨tok, between, hb, hn⟩)
  · cases between with
    | nil => exact .inl (by simpa using hb)
    | cons l between => cases ht; exact .inr (.inr ⟨tok', between, hb, hn'⟩)

/-- No pass 1 that accepts the lines finds a label declared among the lines before its own declaration. -/
theorem pass1_not_nested {n : Nat} {ly ly' : Layout} {lines before before' : List LineKind} {name : Token}
    (h : pass1 n ly lines = .ok ly') (hd : DeclaresAfter lines before name) : ¬ DeclaresAfter before before' name := by
  intro hnested
  obtain ⟨mid, hbefore, hnew, -⟩ := pass1_declares h hd
  obtain ⟨_, -, -, hbound⟩ := pass1_declares hbefore hnested
  rw [hnew] at hbound
  cases hbound

/-- A pass 1 that accepts the lines finds each label declared once. -/
theorem pass1_declaration_unique {n : Nat} {ly ly' : Layout} {lines before before' : List LineKind} {name : Token}
    (h : pass1 n ly lines = .ok ly') (hd : DeclaresAfter lines before name) (hd' : DeclaresAfter lines before' name) :
    before = before' := by
  obtain heq | hnested | hnested := hd.eq_or_nested hd'
  · exact heq
  · exact absurd hnested (pass1_not_nested h hd')
  · exact absurd hnested (pass1_not_nested h hd)

/-! ### Pass 2: one instruction for each INSTRUCTION line (R120) -/

theorem pass2_length {sym : List (Token × Nat)} {n : Nat} {lines : List LineKind} {is : List Instr}
    (h : pass2 sym n lines = .ok is) : is.length = instrLines lines := by
  induction lines generalizing n is with
  | nil => cases h; rfl
  | cons l rest ih =>
    obtain ⟨hl, hrest⟩ | ⟨m, ops, i, tail, rfl, -, hrest, rfl⟩ := pass2_cons h
    · cases l with
      | empty | label => exact ih hrest
      | instruction m ops => exact absurd rfl (hl m ops)
    · rw [List.length_cons, ih hrest, instrLines]

/-- Pass 2 gives no instruction where there is no INSTRUCTION line. -/
theorem pass2_noInstr (sym : List (Token × Nat)) {n : Nat} {lines : List LineKind}
    (h : ∀ m ops, LineKind.instruction m ops ∉ lines) : pass2 sym n lines = .ok [] := by
  induction lines generalizing n with
  | nil => rfl
  | cons l rest ih =>
    have hrest : pass2 sym (n + 1) rest = .ok [] := ih fun m ops hm => h m ops (List.mem_cons_of_mem _ hm)
    cases l with
    | empty | label => exact hrest
    | instruction m ops => exact absurd List.mem_cons_self (h m ops)

theorem instrLines_eq_zero {lines : List LineKind} (h : ∀ m ops, LineKind.instruction m ops ∉ lines) :
    instrLines lines = 0 := (pass2_length (pass2_noInstr [] (n := 1) h)).symm

/-! ### The whole assembler (R110, R118) -/

section

variable {source : List Byte} {text : List Char} (ht : utf8Decode source = some text)
include ht

theorem assemble_pass1_error {f : AsmFailure} (h : pass1 1 Layout.start (sourceLines text) = .error f) :
    assemble source = .error f := by
  simp [assemble, assembleLines, ht, h]

theorem assemble_tooLarge {ly : Layout} (h : pass1 1 Layout.start (sourceLines text) = .ok ly) (hoff : 65532 < ly.off) :
    assemble source = .error { line := none, error := .syntaxError .programTooLarge } := by
  simp [assemble, assembleLines, ht, h, Config.maxProgramBytes, hoff]

theorem assemble_pass2_ok {ly : Layout} {is : List Instr} (h : pass1 1 Layout.start (sourceLines text) = .ok ly)
    (hoff : ly.off ≤ 65532) (his : pass2 ly.sym 1 (sourceLines text) = .ok is) : assemble source = .ok (encodeAll is) := by
  simp [assemble, assembleLines, ht, h, Config.maxProgramBytes, Nat.not_lt.mpr hoff, his]

end

/-- What pass 1 and the buffer of an accepted source agree on: LEN is the offset at which pass 1 ends, within the bound of
R118. -/
theorem assemble_layout {source buffer : List Byte} (h : assemble source = .ok buffer) :
    ∃ text ly, utf8Decode source = some text ∧ pass1 1 Layout.start (sourceLines text) = .ok ly ∧
      ly.off = 4 * instrLines (sourceLines text) ∧ buffer.length = ly.off ∧ ly.off ≤ 65532 := by
  obtain ⟨text, ly, is, ht, hly, hbound, his, rfl⟩ := assemble_ok h
  have hoff : ly.off = 4 * instrLines (sourceLines text) := by rw [pass1_off hly, Layout.start, Nat.zero_add]
  exact ⟨text, ly, ht, hly, hoff, by rw [encodeAll_length, pass2_length his, hoff], hbound⟩

/-- Reset accepts the length of every assembled buffer (R341). -/
theorem assemble_acceptsLength {source buffer : List Byte} (h : assemble source = .ok buffer) :
    acceptsLength buffer.length = true := by
  obtain ⟨_, ly, -, -, hoff, hlen, hbound⟩ := assemble_layout h
  exact acceptsLength_iff.mpr ⟨by omega, by omega⟩

/-! ### The obligations of spec/40_assembler.md -/

/-- Settles O48: both passes count the INSTRUCTION lines, and pass 1 binds a label at the count it has reached. -/
theorem assembledLengthAndLabelOffsets : Obligations.AssembledLengthAndLabelOffsets := by
  intro source buffer h
  obtain ⟨text, ly, ht, hly, hoff, hlen, -⟩ := assemble_layout h
  refine ⟨text, ly, ht, hly, hlen.trans hoff, fun before name hd => ?_⟩
  obtain ⟨mid, hbefore, -, hbound⟩ := pass1_declares hly hd
  rw [hbound, pass1_off hbefore, Layout.start, Nat.zero_add]

/-- Settles O50: no INSTRUCTION line leaves pass 1 at offset 0 and pass 2 with no instruction, and LEN = 0 is the end of the
buffer. -/
theorem emptySourceGivesEmptyBuffer : Obligations.EmptySourceGivesEmptyBuffer := by
  refine ⟨rfl, fun source text ly ht hno hly => ?_, fun initRegs mode s t ht => ?_⟩
  · have hoff : ly.off = 0 := by rw [pass1_off hly, instrLines_eq_zero hno, Layout.start]
    exact assemble_pass2_ok ht hly (by omega) (pass2_noInstr ly.sym hno)
  · obtain ⟨-, rfl⟩ := hostReset_next ht
    exact step_atEnd rfl rfl

/-- Settles O51: pass 1 fails, since one that accepts the lines finds each label declared once. -/
theorem duplicateLabelIsSyntaxError : Obligations.DuplicateLabelIsSyntaxError := by
  intro source text before before' name ht hne hd hd'
  cases hp : pass1 1 Layout.start (sourceLines text) with
  | ok ly => exact absurd (pass1_declaration_unique hp hd hd') hne
  | error f =>
    obtain ⟨r, hr⟩ := pass1_error hp
    exact ⟨f, r, assemble_pass1_error ht hp, hr⟩

/-- Settles O54: the size check bounds pass 1's offset, which bounds every label's and is the buffer's length. -/
theorem largeProgramsAreRefused : Obligations.LargeProgramsAreRefused := by
  refine ⟨fun source text ly ht hly => ⟨fun hoff => ?_, fun buffer h name off hs => ?_⟩,
    fun source buffer initRegs mode s h => ?_⟩
  · exact ⟨_, assemble_tooLarge ht hly hoff, rfl⟩
  · obtain ⟨text', ly', ht', hly', -, -, hbound⟩ := assemble_layout h
    cases ht.symm.trans ht'
    cases hly.symm.trans hly'
    exact (pass1_offsetsBounded hly Layout.offsetsBounded_start name off hs).trans hbound
  · exact ⟨_, hostReset_accepted (assemble_acceptsLength h) initRegs mode s⟩

end Sys2Proof.Machine

/-! PROOFS. Fetch, decode, execute (spec/41_fetch_decode_execute.md R160 to R171). -/

namespace Sys2Proof.Machine

/-! ### The STATUS word at the end of the buffer (R162) -/

@[simp] theorem Status.word_halted_none : (Status.halted none).word = 0 := by decide

@[simp] theorem readStatus_haltAtEnd (s : State) : readStatus (haltAtEnd s) = 0 := Status.word_halted_none

/-! ### One source (R170) -/

@[simp] theorem evalSource_reg (i : RegIdx) (s : State) : evalSource (.reg i) s = some (s.readReg i, s.stack) :=
  operandValue_reg i s.regs s.stack

@[simp] theorem evalSource_imm (v : Word) (s : State) : evalSource (.imm v) s = some (v, s.stack) :=
  operandValue_imm v s.regs s.stack

theorem evalSource_pop_of_cons {s : State} {top : Word} {rest : List Word} (h : s.stack = top :: rest) :
    evalSource .pop s = some (top, rest) := by
  rw [evalSource, h, operandValue_pop_cons]

/-! ### The obligations of spec/41_fetch_decode_execute.md -/

/-- Settles O7: the step's branch for the end of the buffer, whose next state differs in STATUS only. -/
theorem endOfBufferHaltsWithoutError : Obligations.EndOfBufferHaltsWithoutError :=
  fun s hr hl => ⟨step_atEnd hr (atEnd_eq_true.mpr hl), readStatus_haltAtEnd s⟩

/-- Settles O26: one clause per form of a source. -/
theorem sourceOperandValues : Obligations.SourceOperandValues :=
  fun s => ⟨fun i => evalSource_reg i s, fun v => evalSource_imm v s, fun _ _ h => evalSource_pop_of_cons h⟩

end Sys2Proof.Machine

/-! PROOFS. The move (spec/42_move.md R200), with the facts about one source, its underflow and the opcode byte that every
instruction with a source shares. -/

namespace Sys2Proof.Machine

/-! ### Underflow of one source (R171) and the error state it leaves (R304) -/

theorem raiseError_eq_errorState (e : ExecutionError) (s : State) : raiseError e s = ErrorState e s := rfl

theorem evalSource_eq_none_iff {a : Operand} {s : State} :
    evalSource a s = none ↔ s.stack.length < popCount [a] := by
  rw [evalSource, operandValue_eq_none]
  cases a <;> simp

theorem withSource_underflow {a : Operand} {s : State} (h : s.stack.length < popCount [a])
    (k : Word → List Word → Host.Outcome State Fault Refusal) :
    withSource a s k = .next (ErrorState .stackUnderflow s) := by
  rw [withSource_none (evalSource_eq_none_iff.mpr h), raiseError_eq_errorState]

/-! ### The opcode byte of a slot that decodes (R77) -/

theorem b0_mem_legalB0_of_decode {sl : Slot} {i : Instr} (h : decode sl = .ok i) : sl.b0 ∈ legalB0 i.op :=
  exists_decode_with_op_iff.mp ⟨i, h, rfl⟩

/-! ### `mov` (R200) -/

theorem exec_mov (rd : RegIdx) (a : Operand) (s : State) :
    exec (.mov rd a) s = withSource a s fun v st =>
      .next (complete (.mov rd a) { stack := st, reg := some (rd, v), nextPc := s.pcPlus4 } s) := rfl

/-! ### The obligation of spec/42_move.md -/

/-- Settles O28: a source that evaluates is committed with one register write, and the commit's laws give the frame; a source
fails exactly where it underflows. -/
theorem movCopiesItsSource : Obligations.MovCopiesItsSource := by
  intro rd a s
  refine ⟨fun v st h => ?_, fun h => ?_, fun sl h => b0_mem_legalB0_of_decode h⟩
  · rw [exec_mov, withSource_some h]
    exact ⟨_, rfl, complete_writesReg _ s rfl, rfl, rfl, rfl, rfl, complete_keepsProgram _ _ s, complete_countsAs _ _ s⟩
  · rw [exec_mov, withSource_underflow h]

end Sys2Proof.Machine

/-! PROOFS. The arithmetic (spec/43_arithmetic.md R210, R211), with the facts about two sources and their underflow, and the
commit of `computeToReg`, that every instruction of its shape shares. -/

namespace Sys2Proof.Machine

/-! ### Underflow of two sources (R171) -/

/-- A source that evaluates removes one element if it is Pop and none otherwise. -/
theorem length_of_operandValue {o : Operand} {regs : Vector Word 16} {st st' : List Word} {v : Word}
    (h : operandValue o regs st = some (v, st')) : st.length = st'.length + popCount [o] := by
  cases o with
  | reg i => cases h; simp
  | imm w => cases h; simp
  | pop => cases st with
    | nil => cases h
    | cons top rest => cases h; simp

/-- Two sources fail where A does, or where B does on the stack that A left. -/
theorem evalSources_eq_none_iff {a b : Operand} {s : State} :
    evalSources a b s = none ↔ s.stack.length < popCount [a, b] := by
  have hcount : popCount [a, b] = popCount [a] + popCount [b] := by simp [Nat.add_comm]
  cases ha : evalSource a s with
  | none =>
    have hlt := evalSource_eq_none_iff.mp ha
    have hnone : evalSources a b s = none := by rw [evalSource] at ha; simp [evalSources, ha]
    exact iff_of_true hnone (by omega)
  | some p =>
    obtain ⟨va, mid⟩ := p
    rw [evalSource] at ha
    have hlen := length_of_operandValue ha
    have hb : evalSources a b s = none ↔ evalSource b { s with stack := mid } = none := by
      simp only [evalSource, evalSources, ha]
      cases operandValue b s.regs mid <;> simp
    rw [hb, evalSource_eq_none_iff]
    dsimp only
    omega

theorem withSources_underflow {a b : Operand} {s : State} (h : s.stack.length < popCount [a, b])
    (k : Word → Word → List Word → Host.Outcome State Fault Refusal) :
    withSources a b s k = .next (ErrorState .stackUnderflow s) := by
  rw [withSources_none (evalSources_eq_none_iff.mpr h), raiseError_eq_errorState]

/-! ### The instructions that compute a register from two sources -/

/-- Sources that evaluate are committed with one register write and the next pc; the commit's laws give the frame. -/
theorem computeToReg_commits {a b : Operand} {s : State} {va vb : Word} {st : List Word}
    (h : evalSources a b s = some (va, vb, st)) (i : Instr) (rd : RegIdx) (f : Word → Word → Word) :
    ∃ t, computeToReg i rd a b f s = .next t ∧ WritesReg rd (f va vb) s t ∧ t.pc = s.pc + 4#16 ∧ t.stack = st ∧
      t.cmpf = s.cmpf ∧ t.status = s.status ∧ KeepsProgram s t ∧ CountsAs i s t := by
  rw [computeToReg, withSources_some h]
  exact ⟨_, rfl, complete_writesReg _ s rfl, rfl, rfl, rfl, rfl, complete_keepsProgram _ _ s, complete_countsAs _ _ s⟩

theorem computeToReg_underflow {a b : Operand} {s : State} (h : s.stack.length < popCount [a, b]) (i : Instr)
    (rd : RegIdx) (f : Word → Word → Word) :
    computeToReg i rd a b f s = .next (ErrorState .stackUnderflow s) :=
  withSources_underflow h _

/-! ### `add` (R210) and `sub` (R211) -/

theorem exec_add (rd : RegIdx) (a b : Operand) (s : State) :
    exec (.add rd a b) s = computeToReg (.add rd a b) rd a b addResult s := rfl

theorem exec_sub (rd : RegIdx) (a b : Operand) (s : State) :
    exec (.sub rd a b) s = computeToReg (.sub rd a b) rd a b subResult s := rfl

theorem addResult_eq (a b : Word) : addResult a b = w16 (a.toInt + b.toInt) := by
  rw [addResult, s16_eq_toInt, s16_eq_toInt]

theorem subResult_eq (a b : Word) : subResult a b = w16 (a.toInt - b.toInt) := by
  rw [subResult, s16_eq_toInt, s16_eq_toInt]

/-! ### The obligations of spec/43_arithmetic.md -/

/-- Settles O29: `add` has the shape of `computeToReg`, and what it computes is the wrapped signed sum. -/
theorem addWritesTheWrappedSum : Obligations.AddWritesTheWrappedSum := by
  intro rd a b s
  refine ⟨fun va vb st h => ?_, fun h => ?_, fun sl h => b0_mem_legalB0_of_decode h⟩
  · rw [exec_add, ← addResult_eq]
    exact computeToReg_commits h _ rd addResult
  · rw [exec_add, computeToReg_underflow h]

/-- Settles O30: `sub` has the shape of `computeToReg`, and what it computes is the wrapped signed difference. -/
theorem subWritesTheWrappedDifference : Obligations.SubWritesTheWrappedDifference := by
  intro rd a b s
  refine ⟨fun va vb st h => ?_, fun h => ?_, fun sl h => b0_mem_legalB0_of_decode h⟩
  · rw [exec_sub, ← subResult_eq]
    exact computeToReg_commits h _ rd subResult
  · rw [exec_sub, computeToReg_underflow h]

end Sys2Proof.Machine

/-! PROOFS. The comparisons (spec/44_compare.md R220 to R226). `lt`, `gt` and `lteq` have the shape of `computeToReg`, whose
rule is said once; `eq` commits the flag and no register. -/

namespace Sys2Proof.Machine

/-! ### The values that the comparisons compute (R220 to R223, R226) -/

theorem boolWord_decide (p : Prop) [Decidable p] : boolWord (decide p) = if p then 1 else 0 := by
  by_cases h : p
  · rw [decide_eq_true h, if_pos h]; rfl
  · rw [decide_eq_false h, if_neg h]; rfl

theorem ltResult_eq (a b : Word) : ltResult a b = if a.toInt < b.toInt then 1 else 0 := by
  rw [ltResult, boolWord_decide, s16_eq_toInt, s16_eq_toInt]

theorem gtResult_eq (a b : Word) : gtResult a b = if a.toInt > b.toInt then 1 else 0 := by
  rw [gtResult, boolWord_decide, s16_eq_toInt, s16_eq_toInt]

theorem lteqResult_eq (a b : Word) : lteqResult a b = if a.toInt ≤ b.toInt then 1 else 0 := by
  rw [lteqResult, boolWord_decide, s16_eq_toInt, s16_eq_toInt]

theorem eqFlag_eq_true_iff {a b : Word} : eqFlag a b = true ↔ a = b := decide_eq_true_iff

/-! ### The rule of the instructions that write a register from two sources -/

/-- What an instruction of the shape of `computeToReg` does, with the value `g` that its rule gives: the commit, the underflow
and the opcode bytes. -/
theorem exec_of_computeToReg {i : Instr} {rd : RegIdx} {a b : Operand} {f g : Word → Word → Word} {s : State}
    (hexec : exec i s = computeToReg i rd a b f s) (hvalue : ∀ va vb, f va vb = g va vb) :
    (∀ va vb st, evalSources a b s = some (va, vb, st) →
      ∃ t, exec i s = .next t ∧ WritesReg rd (g va vb) s t ∧ t.pc = s.pc + 4#16 ∧ t.stack = st ∧ t.cmpf = s.cmpf ∧
        t.status = s.status ∧ KeepsProgram s t ∧ CountsAs i s t) ∧
    (s.stack.length < popCount [a, b] → exec i s = .next (ErrorState .stackUnderflow s)) ∧
    (∀ sl, decode sl = .ok i → sl.b0 ∈ legalB0 i.op) := by
  refine ⟨fun va vb st h => ?_, fun h => ?_, fun sl h => b0_mem_legalB0_of_decode h⟩
  · rw [hexec, ← hvalue]
    exact computeToReg_commits h i rd f
  · rw [hexec, computeToReg_underflow h]

/-! ### `lt` (R220), `gt` (R221), `lteq` (R222) and `eq` (R226) -/

theorem exec_lt (rd : RegIdx) (a b : Operand) (s : State) :
    exec (.lt rd a b) s = computeToReg (.lt rd a b) rd a b ltResult s := rfl

theorem exec_gt (rd : RegIdx) (a b : Operand) (s : State) :
    exec (.gt rd a b) s = computeToReg (.gt rd a b) rd a b gtResult s := rfl

theorem exec_lteq (rd : RegIdx) (a b : Operand) (s : State) :
    exec (.lteq rd a b) s = computeToReg (.lteq rd a b) rd a b lteqResult s := rfl

theorem exec_eq (a b : Operand) (s : State) :
    exec (.eq a b) s = withSources a b s fun va vb st =>
      .next (complete (.eq a b) { stack := st, cmpf := some (eqFlag va vb), nextPc := s.pcPlus4 } s) := rfl

/-! ### The obligations of spec/44_compare.md -/

/-- Settles O31: `lt` has the shape of `computeToReg`, and what it computes is the signed order as 1 or 0. -/
theorem ltComparesSigned : Obligations.LtComparesSigned :=
  fun rd a b s => exec_of_computeToReg (exec_lt rd a b s) ltResult_eq

/-- Settles O32: `gt` has the shape of `computeToReg`, and what it computes is the reversed signed order as 1 or 0. -/
theorem gtComparesSigned : Obligations.GtComparesSigned :=
  fun rd a b s => exec_of_computeToReg (exec_gt rd a b s) gtResult_eq

/-- Settles O33: `lteq` has the shape of `computeToReg`, and what it computes is the weak signed order as 1 or 0. -/
theorem lteqComparesSigned : Obligations.LteqComparesSigned :=
  fun rd a b s => exec_of_computeToReg (exec_lteq rd a b s) lteqResult_eq

/-- Settles O34: sources that evaluate are committed with the flag and no register write, and the commit's laws give the
frame. -/
theorem eqWritesOnlyTheFlag : Obligations.EqWritesOnlyTheFlag := by
  intro a b s
  refine ⟨fun va vb st h => ?_, fun h => ?_, fun sl h => b0_mem_legalB0_of_decode h⟩
  · rw [exec_eq, withSources_some h]
    exact ⟨_, rfl, eqFlag_eq_true_iff, complete_keepsRegs _ s rfl, rfl, rfl, rfl, complete_keepsProgram _ _ s,
      complete_countsAs _ _ s⟩
  · rw [exec_eq, withSources_underflow h]

end Sys2Proof.Machine

/-! PROOFS. The control transfers (spec/45_control.md R240 to R245). What a checked transfer answers is said once, by whether its
target is valid; `exec_of_jumpIf` is the rule of the two conditional jumps. -/

namespace Sys2Proof.Machine

/-! ### The check of a target (R240) -/

/-- A valid target (R240): below LEN, which itself is not valid, and a multiple of 4. -/
def ValidTarget (s : State) (v : Word) : Prop := v.toNat < s.len ∧ v.toNat % 4 = 0

theorem validTarget_eq_true_iff {s : State} {v : Word} : validTarget s.len v = true ↔ ValidTarget s v := validTarget_iff

theorem not_validTarget_iff {s : State} {v : Word} : ¬ ValidTarget s v ↔ s.len ≤ v.toNat ∨ v.toNat % 4 ≠ 0 := by
  rw [ValidTarget, not_and_or, Nat.not_lt]

theorem transferTo_valid {s : State} {v : Word} (h : ValidTarget s v) (i : Instr) (w : Writes) :
    transferTo i v w s = .next (complete i { w with nextPc := v } s) := by
  rw [transferTo, validTarget_eq_true_iff.mpr h]

theorem transferTo_invalid {s : State} {v : Word} (h : ¬ ValidTarget s v) (i : Instr) (w : Writes) :
    transferTo i v w s = .next (ErrorState .outOfBoundsJump s) := by
  rw [transferTo, Bool.eq_false_iff.mpr (mt validTarget_eq_true_iff.mp h), raiseError_eq_errorState]

/-! ### The four instructions -/

theorem exec_jmpt (c u : Operand) (s : State) :
    exec (.jmpt c u) s = withSources c u s fun vc vu st => jumpIf (.jmpt c u) (decide (vc ≠ 0#16)) vu st s := rfl

theorem exec_jmpf (c u : Operand) (s : State) :
    exec (.jmpf c u) s = withSources c u s fun vc vu st => jumpIf (.jmpf c u) (decide (vc = 0#16)) vu st s := rfl

theorem exec_call (u : Operand) (s : State) :
    exec (.call u) s = withSource u s fun vu st =>
      transferTo (.call u) vu { stack := st, reg := some (15, s.pcPlus4), nextPc := vu } s := rfl

theorem exec_ret (s : State) :
    exec .ret s = transferTo .ret (s.readReg 15) { stack := s.stack, nextPc := s.readReg 15 } s := rfl

/-- A transfer goes through the check of its target, with writes that do not halt. -/
theorem Transfers.exec_eq_transferTo {s : State} {i : Instr} {v : Word} (h : Transfers s i v) :
    ∃ w : Writes, w.halt = false ∧ exec i s = transferTo i v w s := by
  cases h with
  | jmpt h taken => exact ⟨_, rfl, by rw [exec_jmpt, withSources_some h, decide_eq_true taken, jumpIf_true]⟩
  | jmpf h taken => exact ⟨_, rfl, by rw [exec_jmpf, withSources_some h, decide_eq_true taken, jumpIf_true]⟩
  | call h => exact ⟨_, rfl, by rw [exec_call, withSource_some h]⟩
  | ret => exact ⟨_, rfl, exec_ret s⟩

theorem Transfers.exec_invalid {s : State} {i : Instr} {v : Word} (h : Transfers s i v) (hv : ¬ ValidTarget s v) :
    exec i s = .next (ErrorState .outOfBoundsJump s) := by
  obtain ⟨w, -, he⟩ := h.exec_eq_transferTo
  rw [he, transferTo_invalid hv]

theorem Transfers.exec_valid {s : State} {i : Instr} {v : Word} (h : Transfers s i v) (hv : ValidTarget s v) :
    ∃ t, exec i s = .next t ∧ t.pc = v ∧ t.status = s.status := by
  obtain ⟨w, hhalt, he⟩ := h.exec_eq_transferTo
  rw [he, transferTo_valid hv]
  exact ⟨_, rfl, rfl, by simp [complete, hhalt]⟩

/-! ### The rule of the conditional jumps (R172, R241, R242) -/

/-- The target matters only where the jump is taken; the stack is what the sources left in either case. -/
theorem jumpIf_commits {taken : Bool} {v : Word} {s : State} (hv : taken = true → ValidTarget s v) (i : Instr)
    (st : List Word) :
    jumpIf i taken v st s = .next (complete i { stack := st, nextPc := bif taken then v else s.pcPlus4 } s) := by
  cases taken with
  | true => rw [jumpIf_true, transferTo_valid (hv rfl), cond_true]
  | false => rw [jumpIf_false, cond_false]

/-- What a jump that is taken under the condition `p` does: the commit, the invalid target, the underflow and the opcode
bytes. -/
theorem exec_of_jumpIf {i : Instr} {c u : Operand} {s : State} {p : Word → Prop} [DecidablePred p]
    (hexec : exec i s = withSources c u s fun vc vu st => jumpIf i (decide (p vc)) vu st s) :
    (∀ vc vu st, evalSources c u s = some (vc, vu, st) → (p vc → ValidTarget s vu) →
      ∃ t, exec i s = .next t ∧ t.pc = (if p vc then vu else s.pc + 4#16) ∧ KeepsRegs s t ∧ t.stack = st ∧
        t.cmpf = s.cmpf ∧ t.status = s.status ∧ KeepsProgram s t ∧ CountsAs i s t) ∧
    (∀ vc vu st, evalSources c u s = some (vc, vu, st) → p vc → ¬ ValidTarget s vu →
      exec i s = .next (ErrorState .outOfBoundsJump s)) ∧
    (s.stack.length < popCount [c, u] → exec i s = .next (ErrorState .stackUnderflow s)) ∧
    (∀ sl, decode sl = .ok i → sl.b0 ∈ legalB0 i.op) := by
  refine ⟨fun vc vu st h hv => ?_, fun vc vu st h hp hv => ?_, fun h => ?_, fun sl h => b0_mem_legalB0_of_decode h⟩
  · rw [hexec, withSources_some h, jumpIf_commits (fun htaken => hv (of_decide_eq_true htaken))]
    exact ⟨_, rfl, Bool.cond_decide _ _ _, complete_keepsRegs _ s rfl, rfl, rfl, rfl, complete_keepsProgram _ _ s,
      complete_countsAs _ _ s⟩
  · rw [hexec, withSources_some h, decide_eq_true hp, jumpIf_true, transferTo_invalid hv]
  · rw [hexec, withSources_underflow h]

/-! ### The obligations of spec/45_control.md -/

/-- Settles O43: every transfer goes through the one check of its target. -/
theorem transferTargetsAreChecked : Obligations.TransferTargetsAreChecked :=
  fun _ _ _ h => ⟨fun hlen halign => h.exec_valid ⟨hlen, halign⟩, fun hv => h.exec_invalid (not_validTarget_iff.mpr hv)⟩

/-- Settles O35: `jmpt` is the conditional jump that a non-zero condition takes. -/
theorem jmptJumpsOnNonZero : Obligations.JmptJumpsOnNonZero := by
  intro c u s
  obtain ⟨hcommits, hrest⟩ := exec_of_jumpIf (exec_jmpt c u s)
  refine ⟨fun vc vu st h hv => ?_, hrest⟩
  rw [← ite_not]
  exact hcommits vc vu st h hv

/-- Settles O36: `jmpf` is the conditional jump that a zero condition takes. -/
theorem jmpfJumpsOnZero : Obligations.JmpfJumpsOnZero :=
  fun c u s => exec_of_jumpIf (exec_jmpf c u s)

/-- Settles O37: the commit of a valid transfer writes the link register alone; the source is evaluated in the state before it,
and an invalid target is the error of every transfer. -/
theorem callLinksAndJumps : Obligations.CallLinksAndJumps := by
  intro u s
  refine ⟨fun vu st h hlen halign => ?_, fun vu st h hv => (Transfers.call h).exec_invalid hv, fun h => ?_,
    fun sl h => b0_mem_legalB0_of_decode h⟩
  · rw [exec_call, withSource_some h, transferTo_valid ⟨hlen, halign⟩]
    exact ⟨_, rfl, rfl, complete_writesReg _ s rfl, rfl, rfl, rfl, complete_keepsProgram _ _ s, complete_countsAs _ _ s⟩
  · rw [exec_call, withSource_underflow h]

/-- Settles O38: the commit of a valid transfer writes no register and leaves the stack, and an invalid target is the error of
every transfer. -/
theorem retJumpsToTheLink : Obligations.RetJumpsToTheLink := by
  intro s
  refine ⟨fun hlen halign => ?_, Transfers.ret.exec_invalid, fun sl h => b0_mem_legalB0_of_decode h⟩
  rw [exec_ret, transferTo_valid ⟨hlen, halign⟩]
  exact ⟨_, rfl, rfl, complete_keepsRegs _ s rfl, rfl, rfl, rfl, complete_keepsProgram _ _ s, complete_countsAs _ _ s⟩

end Sys2Proof.Machine

/-! PROOFS. The operand stack (spec/46_stack.md R260 to R262). What `push` and `pop` answer is said once per branch; that the
stack is last in, first out follows from the rules of `push`, `pop` and `mov` one after another. -/

namespace Sys2Proof.Machine

/-! ### Room on the stack (R27, R260) -/

theorem hasRoom_eq_true_iff {capacity : Option Nat} {st : List Word} :
    hasRoom capacity st = true ↔ ∀ n, capacity = some n → st.length < n := by
  cases capacity <;> simp [hasRoom]

theorem hasRoom_eq_false_iff {capacity : Option Nat} {st : List Word} :
    hasRoom capacity st = false ↔ ∃ n, capacity = some n ∧ n ≤ st.length := by
  cases capacity <;> simp [hasRoom]

/-! ### `push` (R260) and `pop` (R261) -/

theorem exec_push (a : Operand) (s : State) : exec (.push a) s = execPush a s := rfl

theorem exec_pop (s : State) : exec .pop s = execPop s := rfl

theorem exec_push_of_room {a : Operand} {s : State} {v : Word} {st : List Word} (h : evalSource a s = some (v, st))
    (room : hasRoom s.stackCapacity st = true) :
    exec (.push a) s = .next (complete (.push a) { stack := v :: st, nextPc := s.pcPlus4 } s) := by
  rw [exec_push, execPush, withSource_some h, room]

theorem exec_push_of_full {a : Operand} {s : State} {v : Word} {st : List Word} (h : evalSource a s = some (v, st))
    (full : hasRoom s.stackCapacity st = false) :
    exec (.push a) s = .next (ErrorState .stackOverflow s) := by
  rw [exec_push, execPush, withSource_some h, full, raiseError_eq_errorState]

theorem exec_push_underflow {a : Operand} {s : State} (h : s.stack.length < popCount [a]) :
    exec (.push a) s = .next (ErrorState .stackUnderflow s) := by
  rw [exec_push, execPush, withSource_underflow h]

theorem exec_pop_of_cons {s : State} {top : Word} {rest : List Word} (h : s.stack = top :: rest) :
    exec .pop s = .next (complete .pop { stack := rest, nextPc := s.pcPlus4 } s) := by
  rw [exec_pop, execPop, h]

theorem exec_pop_of_nil {s : State} (h : s.stack = []) : exec .pop s = .next (ErrorState .stackUnderflow s) := by
  rw [exec_pop, execPop, h, raiseError_eq_errorState]

/-! ### What the last-in-first-out law needs of each instruction (R262) -/

theorem evalSource_of_not_isPop {a : Operand} (h : a.isPop = false) (s : State) :
    ∃ v, evalSource a s = some (v, s.stack) := by
  cases a with
  | reg i => exact ⟨_, evalSource_reg i s⟩
  | imm v => exact ⟨v, evalSource_imm v s⟩
  | pop => cases h

/-- A push that raised no error found room: its value stands on what its source left. -/
theorem stack_of_completed_push {a : Operand} {s t : State} {v : Word} {st : List Word}
    (h : evalSource a s = some (v, st)) (hexec : exec (.push a) s = .next t)
    (hok : ∀ e, t.status ≠ .halted (some e)) : t.stack = v :: st := by
  cases hr : hasRoom s.stackCapacity st with
  | true => rw [exec_push_of_room h hr] at hexec; cases hexec; rfl
  | false => rw [exec_push_of_full h hr] at hexec; cases hexec; exact absurd rfl (hok .stackOverflow)

/-! ### The obligations of spec/46_stack.md -/

/-- Settles O39: once the source evaluates, there is room for its value or there is none; the commit's laws give the frame. -/
theorem pushAppendsItsValue : Obligations.PushAppendsItsValue := by
  intro a s
  refine ⟨fun v st h room => ?_, fun v st n h hn full => ?_, exec_push_underflow, fun sl h => b0_mem_legalB0_of_decode h⟩
  · exact ⟨_, exec_push_of_room h (hasRoom_eq_true_iff.mpr room), rfl, rfl, complete_keepsRegs _ s rfl, rfl, rfl,
      complete_keepsProgram _ _ s, complete_countsAs _ _ s⟩
  · exact exec_push_of_full h (hasRoom_eq_false_iff.mpr ⟨n, hn, full⟩)

/-- Settles O40: the stack has a top element, and the commit's laws give the frame, or it is empty. -/
theorem popDiscardsTheTop : Obligations.PopDiscardsTheTop := by
  intro s
  refine ⟨fun top rest h => ?_, exec_pop_of_nil, fun sl h => b0_mem_legalB0_of_decode h⟩
  exact ⟨_, exec_pop_of_cons h, rfl, rfl, complete_keepsRegs _ s rfl, rfl, rfl, complete_keepsProgram _ _ s,
    complete_countsAs _ _ s⟩

/-- The four instructions of R262, by the rules of `push`, `push`, `pop` and `mov`: the second value is gone before `mov` takes
the first. -/
theorem push_push_pop_mov {a1 a2 : Operand} (rX : RegIdx) {s : State} {v1 : Word} (h2 : a2.isPop = false)
    (hv1 : evalSource a1 s = some (v1, s.stack)) (room : ∀ n, s.stackCapacity = some n → s.stack.length + 2 ≤ n) :
    ∃ s1 s2 s3 s4, exec (.push a1) s = .next s1 ∧ exec (.push a2) s1 = .next s2 ∧ exec .pop s2 = .next s3 ∧
      exec (.mov rX .pop) s3 = .next s4 ∧ s4.readReg rX = v1 ∧ s4.stack = s.stack := by
  obtain ⟨s1, he1, hst1, -, -, -, -, hkeeps1, -⟩ :=
    (pushAppendsItsValue a1 s).1 v1 s.stack hv1 fun n hn => by have := room n hn; omega
  obtain ⟨v2, hv2⟩ := evalSource_of_not_isPop h2 s1
  have room1 : ∀ n, s1.stackCapacity = some n → s1.stack.length < n := fun n hn => by
    have := room n (hkeeps1.stackCapacity ▸ hn)
    rw [hst1, List.length_cons]
    omega
  obtain ⟨s2, he2, hst2, -⟩ := (pushAppendsItsValue a2 s1).1 v2 s1.stack hv2 room1
  obtain ⟨s3, he3, hst3, -⟩ := (popDiscardsTheTop s2).1 v2 s1.stack hst2
  obtain ⟨s4, he4, ⟨hreg4, -⟩, -, hst4, -⟩ :=
    (movCopiesItsSource rX .pop s3).1 v1 s.stack (evalSource_pop_of_cons (hst3.trans hst1))
  exact ⟨s1, s2, s3, s4, he1, he2, he3, he4, hreg4, hst4⟩

/-- Settles O45: the four instructions by their rules in turn, and any completed push by the stack it leaves, whose top is the
value pushed. -/
theorem stackIsLastInFirstOut : Obligations.StackIsLastInFirstOut := by
  refine ⟨fun a1 a2 rX s v1 _ h2 hv1 room => push_push_pop_mov rX h2 hv1 room, fun a s t v st h hexec hok => ?_⟩
  have hst := stack_of_completed_push h hexec hok
  exact ⟨evalSource_pop_of_cons hst, _, exec_pop_of_cons hst, rfl⟩

end Sys2Proof.Machine

/-! PROOFS. The system instructions (spec/47_system.md R270, R271). Both are one commit that writes no register and leaves the
stack, so the commit's laws give the frame; only `stop` also halts. -/

namespace Sys2Proof.Machine

theorem exec_nop (s : State) : exec .nop s = .next (complete .nop { stack := s.stack, nextPc := s.pcPlus4 } s) := rfl

theorem exec_stop (s : State) :
    exec .stop s = .next (complete .stop { stack := s.stack, nextPc := s.pcPlus4, halt := true } s) := rfl

/-! ### The obligations of spec/47_system.md -/

/-- Settles O41: the commit of `nop` writes nothing but pc, which it moves to the next slot. -/
theorem nopOnlyAdvances : Obligations.NopOnlyAdvances := by
  intro s
  refine ⟨⟨_, exec_nop s, ?pc, complete_keepsRegs _ s rfl, ?stack, ?cmpf, ?status, complete_keepsProgram _ _ s,
    complete_countsAs _ _ s⟩, fun sl h => b0_mem_legalB0_of_decode h⟩
  case pc | stack | cmpf | status => rfl

/-- Settles O42: the commit of `stop` writes pc and a Halted STATUS with no error. -/
theorem stopHaltsWithoutError : Obligations.StopHaltsWithoutError := by
  intro s
  refine ⟨⟨_, exec_stop s, ?status, ?pc, complete_keepsRegs _ s rfl, ?stack, ?cmpf, complete_keepsProgram _ _ s,
    complete_countsAs _ _ s⟩, fun sl h => b0_mem_legalB0_of_decode h⟩
  case status | pc | stack | cmpf => rfl

end Sys2Proof.Machine

/-! PROOFS. The execution errors (spec/60_exceptions.md R302 to R304, R310). A completed instruction never ends in an error, so a
step that does took one of the step's error branches; `exec_inOrder` says for every instruction that underflow comes before
the operation's own error (R303). -/

namespace Sys2Proof.Machine

/-! ### A step that ends in an error (R302, R304) -/

theorem Status.word_halted_some_toNat (e : ExecutionError) :
    (Status.halted (some e)).word.toNat = 2 * e.code.toNat := by
  cases e <;> rfl

/-- A completed instruction goes on running or halts without error. -/
theorem complete_status_ne_error {s : State} (hr : s.status = .running) (i : Instr) (w : Writes) (e : ExecutionError) :
    (complete i w s).status ≠ .halted (some e) := by
  rw [complete_status, hr]
  cases w.halt <;> simp

/-- An instruction that ends in an error wrote nothing but STATUS. -/
theorem exec_error {i : Instr} {s t : State} {e : ExecutionError} (hr : s.status = .running) (hexec : exec i s = .next t)
    (he : t.status = .halted (some e)) : ExecRaises s e ∧ t = ErrorState e s := by
  obtain ⟨e', hraises, hnext⟩ | ⟨w, -, hnext⟩ := exec_cases i s
  · rw [hexec] at hnext
    cases hnext
    cases he
    exact ⟨hraises, raiseError_eq_errorState e s⟩
  · rw [hexec] at hnext
    cases hnext
    exact absurd he (complete_status_ne_error hr i w e)

/-- A step that ends in an error fetched a slot, and left the error state of it; the error is InvalidInstructionError or one
that executing an instruction can raise. -/
theorem step_error {s t : State} {e : ExecutionError} (h : step s = .next t) (he : t.status = .halted (some e)) :
    ∃ sl, s.SlotAtPc sl ∧ t = ErrorState e (s.fetched sl) ∧
      (e = .invalidInstruction ∨ ExecRaises (s.fetched sl) e) := by
  obtain ⟨hr, ⟨-, rfl⟩ | ⟨sl, -, hf, ⟨d, -, rfl⟩ | ⟨i, -, hexec⟩⟩⟩ := step_next_cases h
  · cases he
  · cases he
    exact ⟨sl, fetchSlot_eq_some.mp hf, rfl, .inl rfl⟩
  · obtain ⟨hraises, ht⟩ := exec_error (s := s.withIr sl) hr hexec he
    exact ⟨sl, fetchSlot_eq_some.mp hf, ht, .inr hraises⟩

/-! ### The order of underflow and the operation's own error (R303) -/

/-- The errors that come third in R303's order: each operation's own, once its sources are evaluated. -/
inductive OperationError : Op → ExecutionError → Prop where
  | jmpt : OperationError .jmpt .outOfBoundsJump
  | jmpf : OperationError .jmpf .outOfBoundsJump
  | call : OperationError .call .outOfBoundsJump
  | ret : OperationError .ret .outOfBoundsJump
  | push : OperationError .push .stackOverflow

/-- What an instruction answers once its sources are evaluated: its operation's own error, or the commit. -/
def OperationAnswers (i : Instr) (s : State) (o : Host.Outcome State Fault Refusal) : Prop :=
  (∃ e, OperationError i.op e ∧ o = .next (ErrorState e s)) ∨ ∃ w, o = .next (complete i w s)

/-- R303's order for an instruction that decoded: underflow exactly where the stack holds too few elements, else what its
operation answers. -/
def AnswersInOrder (i : Instr) (s : State) (o : Host.Outcome State Fault Refusal) : Prop :=
  (s.stack.length < popDemand i ∧ o = .next (ErrorState .stackUnderflow s)) ∨
  (popDemand i ≤ s.stack.length ∧ OperationAnswers i s o)

theorem OperationAnswers.commit (i : Instr) (w : Writes) (s : State) : OperationAnswers i s (.next (complete i w s)) :=
  .inr ⟨w, rfl⟩

theorem OperationAnswers.transferTo {i : Instr} (hop : OperationError i.op .outOfBoundsJump) (v : Word) (w : Writes)
    (s : State) : OperationAnswers i s (transferTo i v w s) := by
  obtain ⟨-, he⟩ | ⟨-, he⟩ := transferTo_cases i v w s
  · exact .inr ⟨_, he⟩
  · exact .inl ⟨_, hop, he⟩

theorem OperationAnswers.jumpIf {i : Instr} (hop : OperationError i.op .outOfBoundsJump) (taken : Bool) (v : Word)
    (st : List Word) (s : State) : OperationAnswers i s (jumpIf i taken v st s) := by
  cases taken with
  | true => exact .transferTo hop v _ s
  | false => exact .commit i _ s

/-- An instruction without sources, other than `pop`, takes no element. -/
theorem AnswersInOrder.noSource {i : Instr} {s : State} {o : Host.Outcome State Fault Refusal} (hd : popDemand i = 0)
    (h : OperationAnswers i s o) : AnswersInOrder i s o :=
  .inr ⟨hd ▸ Nat.zero_le _, h⟩

theorem AnswersInOrder.withSource {i : Instr} {a : Operand} {s : State}
    {k : Word → List Word → Host.Outcome State Fault Refusal} (hd : popDemand i = popCount [a])
    (h : ∀ v st, OperationAnswers i s (k v st)) : AnswersInOrder i s (withSource a s k) := by
  rw [AnswersInOrder, hd]
  cases he : evalSource a s with
  | none =>
    have hlt := evalSource_eq_none_iff.mp he
    exact .inl ⟨hlt, withSource_underflow hlt k⟩
  | some p =>
    have hle := Nat.le_of_not_lt (mt evalSource_eq_none_iff.mpr (he ▸ Option.some_ne_none p))
    exact .inr ⟨hle, withSource_some he k ▸ h p.1 p.2⟩

theorem AnswersInOrder.withSources {i : Instr} {a b : Operand} {s : State}
    {k : Word → Word → List Word → Host.Outcome State Fault Refusal} (hd : popDemand i = popCount [a, b])
    (h : ∀ va vb st, OperationAnswers i s (k va vb st)) : AnswersInOrder i s (withSources a b s k) := by
  rw [AnswersInOrder, hd]
  cases he : evalSources a b s with
  | none =>
    have hlt := evalSources_eq_none_iff.mp he
    exact .inl ⟨hlt, withSources_underflow hlt k⟩
  | some p =>
    have hle := Nat.le_of_not_lt (mt evalSources_eq_none_iff.mpr (he ▸ Option.some_ne_none p))
    exact .inr ⟨hle, withSources_some he k ▸ h p.1 p.2.1 p.2.2⟩

theorem AnswersInOrder.computeToReg {i : Instr} {a b : Operand} (hd : popDemand i = popCount [a, b]) (rd : RegIdx)
    (f : Word → Word → Word) (s : State) : AnswersInOrder i s (computeToReg i rd a b f s) :=
  .withSources hd fun _ _ _ => .commit i _ s

theorem AnswersInOrder.push (a : Operand) (s : State) : AnswersInOrder (.push a) s (execPush a s) := by
  refine .withSource rfl fun v st => ?_
  cases hasRoom s.stackCapacity st with
  | true => exact .commit _ _ s
  | false => exact .inl ⟨_, .push, rfl⟩

theorem AnswersInOrder.pop (s : State) : AnswersInOrder .pop s (exec .pop s) := by
  have hd : popDemand .pop = 1 := rfl
  cases hs : s.stack with
  | nil => exact .inl ⟨by simp [hs, hd], exec_pop_of_nil hs⟩
  | cons top rest => exact .inr ⟨by simp [hs, hd], exec_pop_of_cons hs ▸ .commit _ _ s⟩

/-- Every instruction answers in R303's order. -/
theorem exec_inOrder (i : Instr) (s : State) : AnswersInOrder i s (exec i s) := by
  cases i with
  | mov rd a => exact .withSource rfl fun _ _ => .commit _ _ s
  | add rd a b => exact .computeToReg rfl rd _ s
  | sub rd a b => exact .computeToReg rfl rd _ s
  | lt rd a b => exact .computeToReg rfl rd _ s
  | gt rd a b => exact .computeToReg rfl rd _ s
  | lteq rd a b => exact .computeToReg rfl rd _ s
  | eq a b => exact .withSources rfl fun _ _ _ => .commit _ _ s
  | jmpt c u => exact .withSources rfl fun _ _ _ => .jumpIf (i := .jmpt c u) .jmpt _ _ _ s
  | jmpf c u => exact .withSources rfl fun _ _ _ => .jumpIf (i := .jmpf c u) .jmpf _ _ _ s
  | call u => exact .withSource rfl fun _ _ => .transferTo (i := .call u) .call _ _ s
  | ret => exact .noSource rfl (.transferTo (i := .ret) .ret _ _ s)
  | push a => exact .push a s
  | pop => exact .pop s
  | nop => exact .noSource rfl (.commit _ _ s)
  | stop => exact .noSource rfl (.commit _ _ s)

theorem exec_underflow {i : Instr} {s : State} (h : s.stack.length < popDemand i) :
    exec i s = .next (ErrorState .stackUnderflow s) := by
  obtain ⟨-, he⟩ | ⟨hle, -⟩ := exec_inOrder i s
  · exact he
  · exact absurd h (Nat.not_lt.mpr hle)

/-- With enough elements on the stack, an error is the operation's own. -/
theorem exec_operationError {i : Instr} {s t : State} {e : ExecutionError} (hr : s.status = .running)
    (henough : popDemand i ≤ s.stack.length) (hexec : exec i s = .next t) (he : t.status = .halted (some e)) :
    OperationError i.op e := by
  obtain ⟨hlt, -⟩ | ⟨-, ⟨e', hop, hnext⟩ | ⟨w, hnext⟩⟩ := exec_inOrder i s
  · exact absurd henough (Nat.not_le.mpr hlt)
  · rw [hexec] at hnext
    cases hnext
    cases he
    exact hop
  · rw [hexec] at hnext
    cases hnext
    exact absurd he (complete_status_ne_error hr i w e)

theorem operationError_iff {o : Op} {e : ExecutionError} : OperationError o e ↔
    (e = .outOfBoundsJump ∧ (o = .jmpt ∨ o = .jmpf ∨ o = .call ∨ o = .ret)) ∨ (e = .stackOverflow ∧ o = .push) := by
  constructor
  · rintro (_ | _) <;> simp
  · rintro (⟨rfl, rfl | rfl | rfl | rfl⟩ | ⟨rfl, rfl⟩) <;> constructor

/-! ### The obligations of spec/60_exceptions.md -/

/-- Settles O9: the step's branch for Halted, and the run's. -/
theorem haltedHasNoStep : Obligations.HaltedHasNoStep :=
  fun _ _ _ h => ⟨step_halted h, run_halted h⟩

/-- Settles O10: every error branch of the step leaves the error state of the fetched slot. -/
theorem errorStepCommitsNothing : Obligations.ErrorStepCommitsNothing := by
  intro s t e h he
  obtain ⟨sl, hslot, rfl, -⟩ := step_error h he
  exact ⟨sl, hslot, rfl, Status.word_halted_some_toNat e⟩

/-- Settles O11: neither decode nor the execution of an instruction has that error. -/
theorem executionNeverRaisesInvalidRegister : Obligations.ExecutionNeverRaisesInvalidRegister := by
  intro s t h he
  obtain ⟨sl, -, -, hinvalid | hraises⟩ := step_error h he
  · cases hinvalid
  · cases hraises

/-- Settles O12: a slot that does not decode has an opcode byte outside the table (O8); the instruction of one that does answers
in R303's order. -/
theorem errorPriorityIsTheStepsOrder : Obligations.ErrorPriorityIsTheStepsOrder := by
  intro s sl hr hl hslot
  refine ⟨fun hne => ?_, fun i hd => ?_⟩
  · have hb0 : ∀ o, sl.b0 ∉ legalB0 o := fun o hb => by
      obtain ⟨i, hd, -⟩ := exists_decode_with_op_iff.mpr hb
      exact hne i hd
    exact (illegalSlotRaisesInvalidInstruction s sl hb0).2 hr hl hslot
  · rw [step_exec hr (atEnd_eq_false.mpr hl) (fetchSlot_eq_some.mpr hslot) hd, withIr_eq_fetched]
    refine ⟨exec_underflow (s := s.fetched sl), fun henough t e hexec he => ?_⟩
    exact operationError_iff.mp (exec_operationError (s := s.fetched sl) hr henough hexec he)

end Sys2Proof.Machine

/-! PROOFS. What an instruction and a step do, said once for the statements about every step (spec/10_state.md,
spec/41_fetch_decode_execute.md). `exec_answersAlike`: the answer depends only on what execution reads, and the register
and the next pc that it commits are those its instruction names. `step_effect`: the four things a step can have done. -/

namespace Sys2Proof.Machine

/-! ### What execution reads -/

/-- The states agree in every field that a step reads: all but IR, CMPF, MODE, the counters and the trace. -/
structure SameReads (s s' : State) : Prop where
  regs : s'.regs = s.regs
  pc : s'.pc = s.pc
  stack : s'.stack = s.stack
  stackCapacity : s'.stackCapacity = s.stackCapacity
  mem : s'.mem = s.mem
  len : s'.len = s.len
  status : s'.status = s.status

namespace SameReads

variable {s s' : State} (h : SameReads s s')
include h

theorem withIr (sl : Slot) : SameReads (s.withIr sl) (s'.withIr sl) :=
  ⟨h.regs, h.pc, h.stack, h.stackCapacity, h.mem, h.len, h.status⟩

theorem readReg (j : RegIdx) : s'.readReg j = s.readReg j := by rw [State.readReg, State.readReg, h.regs]

theorem pcPlus4 : s'.pcPlus4 = s.pcPlus4 := by rw [State.pcPlus4, State.pcPlus4, h.pc]

theorem atEnd : s'.atEnd = s.atEnd := by rw [State.atEnd, State.atEnd, h.pc, h.len]

theorem evalSource (a : Operand) : evalSource a s' = evalSource a s := by
  rw [Machine.evalSource, Machine.evalSource, h.regs, h.stack]

theorem evalSources (a b : Operand) : evalSources a b s' = evalSources a b s := by
  rw [Machine.evalSources, Machine.evalSources, h.regs, h.stack]

end SameReads

/-! ### What an instruction answers at two states that agree in what it reads -/

/-- The register and the next pc of the writes are the instruction's: its destination, or r15 for `call` (R22), and pc + 4
or the valid target of its transfer (R165, R240). -/
structure NamedWrites (i : Instr) (s : State) (w : Writes) : Prop where
  reg : ∀ rd v, w.reg = some (rd, v) → i.dst = some rd ∨ (i.op = .call ∧ rd = 15)
  nextPc : w.nextPc = s.pcPlus4 ∨ (Transfers s i w.nextPc ∧ ValidTarget s w.nextPc)

/-- The two outcomes are the same error at each state, or the commit of the same writes, which the instruction names. -/
def AnswersAlike (i : Instr) (s s' : State) (o o' : Host.Outcome State Fault Refusal) : Prop :=
  (∃ e, o = .next (raiseError e s) ∧ o' = .next (raiseError e s')) ∨
  ∃ w, NamedWrites i s w ∧ o = .next (complete i w s) ∧ o' = .next (complete i w s')

namespace AnswersAlike

variable {i : Instr} {s s' : State} (h : SameReads s s')

theorem raise (i : Instr) (e : ExecutionError) (s s' : State) :
    AnswersAlike i s s' (.next (raiseError e s)) (.next (raiseError e s')) :=
  .inl ⟨e, rfl, rfl⟩

/-- A commit that goes on at pc + 4. -/
theorem advance {w : Writes} (hpc : w.nextPc = s.pcPlus4) (hreg : ∀ rd v, w.reg = some (rd, v) → i.dst = some rd) :
    AnswersAlike i s s' (.next (complete i w s)) (.next (complete i w s')) :=
  .inr ⟨w, ⟨fun rd v hw => .inl (hreg rd v hw), .inl hpc⟩, rfl, rfl⟩

include h

theorem withSource {a : Operand} {k k' : Word → List Word → Host.Outcome State Fault Refusal}
    (hk : ∀ v st, evalSource a s = some (v, st) → AnswersAlike i s s' (k v st) (k' v st)) :
    AnswersAlike i s s' (withSource a s k) (withSource a s' k') := by
  have ha := h.evalSource a
  cases he : evalSource a s with
  | none => rw [withSource_none he, withSource_none (ha.trans he)]; exact .raise i _ s s'
  | some p => rw [withSource_some he, withSource_some (ha.trans he)]; exact hk p.1 p.2 he

theorem withSources {a b : Operand} {k k' : Word → Word → List Word → Host.Outcome State Fault Refusal}
    (hk : ∀ va vb st, evalSources a b s = some (va, vb, st) → AnswersAlike i s s' (k va vb st) (k' va vb st)) :
    AnswersAlike i s s' (withSources a b s k) (withSources a b s' k') := by
  have hab := h.evalSources a b
  cases he : evalSources a b s with
  | none => rw [withSources_none he, withSources_none (hab.trans he)]; exact .raise i _ s s'
  | some p => rw [withSources_some he, withSources_some (hab.trans he)]; exact hk p.1 p.2.1 p.2.2 he

theorem transferTo {v : Word} {w : Writes} (ht : Transfers s i v)
    (hreg : ∀ rd v, w.reg = some (rd, v) → i.op = .call ∧ rd = 15) :
    AnswersAlike i s s' (transferTo i v w s) (transferTo i v w s') := by
  have hvalid : ValidTarget s' v ↔ ValidTarget s v := by rw [ValidTarget, ValidTarget, h.len]
  by_cases hv : ValidTarget s v
  · rw [transferTo_valid hv, transferTo_valid (hvalid.mpr hv)]
    exact .inr ⟨{ w with nextPc := v }, ⟨fun rd v hw => .inr (hreg rd v hw), .inr ⟨ht, hv⟩⟩, rfl, rfl⟩
  · rw [transferTo_invalid hv, transferTo_invalid (mt hvalid.mp hv)]
    exact .raise i .outOfBoundsJump s s'

theorem jumpIf {p : Prop} [Decidable p] {v : Word} (ht : p → Transfers s i v) (st : List Word) :
    AnswersAlike i s s' (jumpIf i (decide p) v st s) (jumpIf i (decide p) v st s') := by
  by_cases hp : p
  · rw [decide_eq_true hp, jumpIf_true, jumpIf_true]
    exact .transferTo h (ht hp) nofun
  · rw [decide_eq_false hp, jumpIf_false, jumpIf_false, h.pcPlus4]
    exact .advance rfl nofun

theorem computeToReg {rd : RegIdx} (hd : i.dst = some rd) (a b : Operand) (f : Word → Word → Word) :
    AnswersAlike i s s' (computeToReg i rd a b f s) (computeToReg i rd a b f s') := by
  rw [Machine.computeToReg, Machine.computeToReg, h.pcPlus4]
  exact .withSources h fun _ _ _ _ => .advance rfl fun _ _ hw => by cases hw; exact hd

theorem push (a : Operand) : AnswersAlike (.push a) s s' (exec (.push a) s) (exec (.push a) s') := by
  rw [exec_push, exec_push, execPush, execPush, h.stackCapacity, h.pcPlus4]
  refine .withSource h fun v st _ => ?_
  cases hasRoom s.stackCapacity st with
  | true => exact .advance rfl nofun
  | false => exact .raise _ .stackOverflow s s'

theorem pop : AnswersAlike .pop s s' (exec .pop s) (exec .pop s') := by
  have hstack := h.stack
  cases hs : s.stack with
  | nil => rw [exec_pop_of_nil hs, exec_pop_of_nil (hstack.trans hs)]; exact .raise _ .stackUnderflow s s'
  | cons top rest =>
    rw [exec_pop_of_cons hs, exec_pop_of_cons (hstack.trans hs), h.pcPlus4]
    exact .advance rfl nofun

end AnswersAlike

/-- What an instruction does is decided by the fields it reads, and it writes what it names. -/
theorem exec_answersAlike (i : Instr) {s s' : State} (h : SameReads s s') :
    AnswersAlike i s s' (exec i s) (exec i s') := by
  cases i with
  | mov rd a =>
    rw [exec_mov, exec_mov, h.pcPlus4]
    exact .withSource h fun _ _ _ => .advance rfl fun _ _ hw => by cases hw; rfl
  | add rd a b => exact .computeToReg h rfl a b _
  | sub rd a b => exact .computeToReg h rfl a b _
  | lt rd a b => exact .computeToReg h rfl a b _
  | gt rd a b => exact .computeToReg h rfl a b _
  | lteq rd a b => exact .computeToReg h rfl a b _
  | eq a b =>
    rw [exec_eq, exec_eq, h.pcPlus4]
    exact .withSources h fun _ _ _ _ => .advance rfl nofun
  | jmpt c u => exact .withSources h fun _ _ st he => .jumpIf h (.jmpt he) st
  | jmpf c u => exact .withSources h fun _ _ st he => .jumpIf h (.jmpf he) st
  | call u =>
    rw [exec_call, exec_call, h.pcPlus4]
    exact .withSource h fun _ _ he => .transferTo h (.call he) fun _ _ hw => by cases hw; exact ⟨rfl, rfl⟩
  | ret =>
    rw [exec_ret, exec_ret, h.readReg, h.stack]
    exact .transferTo h .ret nofun
  | push a => exact .push h a
  | pop => exact .pop h
  | nop => rw [exec_nop, exec_nop, h.stack, h.pcPlus4]; exact .advance rfl nofun
  | stop => rw [exec_stop, exec_stop, h.stack, h.pcPlus4]; exact .advance rfl nofun

/-- An instruction raises an error, or completes with writes that it names. -/
theorem exec_named (i : Instr) (s : State) :
    (∃ e, exec i s = .next (raiseError e s)) ∨ ∃ w, NamedWrites i s w ∧ exec i s = .next (complete i w s) := by
  obtain ⟨e, he, -⟩ | ⟨w, hw, he, -⟩ := exec_answersAlike i (s := s) ⟨rfl, rfl, rfl, rfl, rfl, rfl, rfl⟩
  · exact .inl ⟨e, he⟩
  · exact .inr ⟨w, hw, he⟩

/-! ### What a step can have done -/

/-- What leads a step from `s` to the given state: the end of the buffer, a slot that does not decode, an error that the
decoded instruction raises, or its commit. -/
inductive StepEffect (s : State) : State → Prop where
  | atEnd (hl : s.len ≤ s.pc.toNat) : StepEffect s (haltAtEnd s)
  | invalid {sl : Slot} {d : DecodeError} (hl : s.pc.toNat < s.len) (hslot : s.SlotAtPc sl)
      (hd : decode sl = .error d) : StepEffect s (raiseError .invalidInstruction (s.withIr sl))
  | raised {sl : Slot} {i : Instr} {e : ExecutionError} (hl : s.pc.toNat < s.len) (hslot : s.SlotAtPc sl)
      (hd : decode sl = .ok i) (he : ExecRaises (s.withIr sl) e) : StepEffect s (raiseError e (s.withIr sl))
  | completed {sl : Slot} {i : Instr} {w : Writes} (hl : s.pc.toNat < s.len) (hslot : s.SlotAtPc sl)
      (hd : decode sl = .ok i) (hw : BoundedWrites i (s.withIr sl) w) :
      StepEffect s (complete i w (s.withIr sl))

theorem step_running {s t : State} (h : step s = .next t) : s.status = .running := (step_next_cases h).1

theorem step_effect {s t : State} (h : step s = .next t) : StepEffect s t := by
  obtain ⟨-, ⟨hend, rfl⟩ | ⟨sl, hl, hf, hcases⟩⟩ := step_next_cases h
  · exact .atEnd (atEnd_eq_true.mp hend)
  have hl := atEnd_eq_false.mp hl
  have hslot := fetchSlot_eq_some.mp hf
  obtain ⟨d, hd, rfl⟩ | ⟨i, hd, hexec⟩ := hcases
  · exact .invalid hl hslot hd
  · obtain ⟨e, he, hnext⟩ | ⟨w, hw, hnext⟩ := exec_cases i (s.withIr sl) <;> cases hexec.symm.trans hnext
    · exact .raised hl hslot hd he
    · exact .completed hl hslot hd hw

end Sys2Proof.Machine

/-! PROOFS. What no step reads: MODE, the counters and the trace (spec/10_state.md section 6), and CMPF (section 5). Both
statements hide fields by a function that `HidesUnread` describes, and `step_hide` is the step lemma of both. -/

namespace Sys2Proof.Machine

/-- `H` hides fields that execution does not read, and no update of a step lets a hidden field into the others. -/
structure HidesUnread (H : State → State) : Prop where
  reads : ∀ s, SameReads (H s) s
  idem : ∀ s, H (H s) = H s
  withIr : ∀ s sl, (H s).withIr sl = H (s.withIr sl)
  haltAtEnd : ∀ s, haltAtEnd (H s) = H (haltAtEnd s)
  raiseError : ∀ e s, raiseError e (H s) = H (raiseError e s)
  complete : ∀ i w s, H (complete i w (H s)) = H (complete i w s)

theorem hidesUnread_hideObservers : HidesUnread State.hideObservers where
  reads _ := ⟨rfl, rfl, rfl, rfl, rfl, rfl, rfl⟩
  idem _ := rfl
  withIr _ _ := rfl
  haltAtEnd _ := rfl
  raiseError _ _ := rfl
  complete _ _ _ := rfl

theorem hidesUnread_hideCmpf : HidesUnread State.hideCmpf where
  reads _ := ⟨rfl, rfl, rfl, rfl, rfl, rfl, rfl⟩
  idem _ := rfl
  withIr _ _ := rfl
  haltAtEnd _ := rfl
  raiseError _ _ := rfl
  complete _ _ _ := rfl

section

variable {H : State → State} (hH : HidesUnread H)
include hH

theorem exec_hide (i : Instr) (s : State) : mapNext H (exec i (H s)) = mapNext H (exec i s) := by
  obtain ⟨e, he, he'⟩ | ⟨w, -, he, he'⟩ := exec_answersAlike i (hH.reads s) <;> rw [he, he']
  · simp only [mapNext, hH.raiseError, hH.idem]
  · simp only [mapNext, hH.complete]

theorem step_hide (s : State) : mapNext H (step (H s)) = mapNext H (step s) := by
  have hreads := hH.reads s
  cases hr : s.status with
  | halted e => rw [step_halted hr, step_halted (hreads.status.symm.trans hr)]
  | running =>
    have hr' := hreads.status.symm.trans hr
    cases he : s.atEnd with
    | true =>
      rw [step_atEnd hr he, step_atEnd hr' (hreads.atEnd.symm.trans he)]
      simp only [mapNext, hH.haltAtEnd, hH.idem]
    | false =>
      have he' := hreads.atEnd.symm.trans he
      have hfetch : fetchSlot (H s).mem (u16 (H s).pc) = fetchSlot s.mem (u16 s.pc) := by
        rw [← hreads.mem, ← hreads.pc]
      cases hf : fetchSlot s.mem (u16 s.pc) with
      | none => rw [step_noSlot hr he hf, step_noSlot hr' he' (hfetch.trans hf)]
      | some sl =>
        cases hd : decode sl with
        | error d =>
          rw [step_invalid hr he hf hd, step_invalid hr' he' (hfetch.trans hf) hd, hH.withIr]
          simp only [mapNext, hH.raiseError, hH.idem]
        | ok i => rw [step_exec hr he hf hd, step_exec hr' he' (hfetch.trans hf) hd, hH.withIr, exec_hide hH]

/-- States that agree in what `H` does not hide step to outcomes that do. -/
theorem step_congr_hidden {s s' : State} (h : H s = H s') : mapNext H (step s) = mapNext H (step s') := by
  rw [← step_hide hH s, h, step_hide hH s']

end

/-! ### CMPF is written by `eq` alone (R28) -/

theorem instr_eq_of_op_eq {i : Instr} (h : i.op = .eq) : ∃ a b, i = .eq a b := by
  cases i <;> cases h
  exact ⟨_, _, rfl⟩

theorem step_cmpf {s t : State} (h : step s = .next t) (hne : t.cmpf ≠ s.cmpf) :
    ∃ sl i, s.SlotAtPc sl ∧ decode sl = .ok i ∧ i.op = .eq := by
  cases step_effect h with
  | atEnd | invalid | raised => exact absurd rfl hne
  | completed hl hslot hd hw =>
    refine ⟨_, _, hslot, hd, of_not_not fun hop => hne ?_⟩
    rw [complete_cmpf, hw.cmpf hop, Option.getD_none, withIr_cmpf]

/-! ### The obligations -/

/-- Settles O18: the step lemma for what `hideObservers` hides. -/
theorem observersDoNotChangeExecution : Obligations.ObserversDoNotChangeExecution :=
  fun _ _ h => step_congr_hidden hidesUnread_hideObservers h

/-- Settles O19: the step lemma for what `hideCmpf` hides; of the completed instructions only `eq` writes CMPF. -/
theorem comparisonFlagIsReadByNothing : Obligations.ComparisonFlagIsReadByNothing := by
  refine ⟨fun _ _ h => step_congr_hidden hidesUnread_hideCmpf h, fun s t h hne => ?_⟩
  obtain ⟨sl, i, hslot, hd, hop⟩ := step_cmpf h hne
  obtain ⟨a, b, rfl⟩ := instr_eq_of_op_eq hop
  exact ⟨sl, a, b, hslot, hd⟩

end Sys2Proof.Machine

/-! PROOFS. The invariant of reachable states (spec/10_state.md, spec/60_exceptions.md, spec/70_reset_and_hazards.md): every
accepted reset meets it, every step keeps it, and from a state that meets it no step and no run is stuck. -/

namespace Sys2Proof.Machine

/-! ### The updates of a step keep the invariant -/

namespace State.Inv

variable {s : State} (h : s.Inv)
include h

theorem withIr (sl : Slot) : (s.withIr sl).Inv := { h with }

/-- Halting keeps the invariant, whatever the error but the two that it excludes or bounds. -/
theorem halted {e : Option ExecutionError} (hreg : e ≠ some .invalidRegister)
    (hover : e = some .stackOverflow → s.stackCapacity ≠ none) : ({ s with status := .halted e } : State).Inv :=
  { h with
    neverInvalidRegister := fun he => hreg (Status.halted.inj he)
    overflowNeedsBound := fun he => hover (Status.halted.inj he) }

theorem haltAtEnd : (haltAtEnd s).Inv := h.halted nofun nofun

theorem raiseInvalid : (raiseError .invalidInstruction s).Inv := h.halted nofun nofun

theorem raise {e : ExecutionError} (he : ExecRaises s e) : (raiseError e s).Inv := by
  cases he with
  | underflow | jump => exact h.halted nofun nofun
  | overflow n hn => exact h.halted nofun fun _ => hn ▸ Option.some_ne_none n

/-- Below LEN, which is a multiple of 4 as pc is, there is room for a whole slot (R54, R163). -/
theorem slot_in_buffer {a : Nat} (h4 : a % 4 = 0) (ha : a < s.len) : a + 4 ≤ s.len := by
  have hlen := h.lenAligned
  omega

theorem pcPlus4_toNat (hl : s.pc.toNat < s.len) : s.pcPlus4.toNat = s.pc.toNat + 4 := by
  have hroom := h.slot_in_buffer h.pcAligned hl
  have hbound : s.len ≤ 65532 := h.lenBound
  rw [State.pcPlus4, BitVec.toNat_add]
  exact Nat.mod_eq_of_lt (by simp only [BitVec.toNat_ofNat]; omega)

/-- The next pc of a completed instruction is an aligned offset of the buffer, or LEN (R24). -/
theorem nextPc {w : Word} (hl : s.pc.toNat < s.len) (hw : w = s.pcPlus4 ∨ validTarget s.len w = true) :
    u16 w % 4 = 0 ∧ u16 w ≤ s.len := by
  obtain rfl | hvalid := hw
  · have h4 : s.pc.toNat % 4 = 0 := h.pcAligned
    have hroom := h.slot_in_buffer h4 hl
    have hnext := h.pcPlus4_toNat hl
    exact ⟨by rw [u16]; omega, by rw [u16]; omega⟩
  · obtain ⟨hlt, h4⟩ := validTarget_iff.mp hvalid
    exact ⟨h4, hlt.le⟩

theorem complete (hr : s.status = .running) (hl : s.pc.toNat < s.len) {i : Instr} {w : Writes}
    (hw : BoundedWrites i s w) : (complete i w s).Inv where
  lenAligned := h.lenAligned
  lenBound := h.lenBound
  pcAligned := (h.nextPc hl hw.nextPc).1
  pcBound := (h.nextPc hl hw.nextPc).2
  memCanonical := h.memCanonical
  memIsBuffer := h.memIsBuffer
  stackBound n hn := hw.stack.elim (fun hle => hle.trans (h.stackBound n hn)) fun hle => hle n hn
  neverInvalidRegister := complete_status_ne_error hr i w _
  overflowNeedsBound he := absurd he (complete_status_ne_error hr i w _)
  countsBalance := by rw [complete_totalCount, complete_instret, h.countsBalance]
  traceOff hd := by rw [(complete_countsAs i w s).traceOff hd, h.traceOff hd]
  traceOn hd := by
    rw [(complete_countsAs i w s).traceOn hd, complete_instret, ← h.traceOn hd, List.length_append,
      BitVec.ofNat_add]
    rfl
  tracePcs r hrec := by
    cases hd : s.mode.debug with
    | false => exact h.tracePcs r ((complete_countsAs i w s).traceOff hd ▸ hrec)
    | true =>
      rw [(complete_countsAs i w s).traceOn hd, List.mem_append, List.mem_singleton] at hrec
      obtain hold | rfl := hrec
      · exact h.tracePcs r hold
      · exact ⟨h.pcAligned, hl⟩

theorem step {t : State} (hstep : step s = .next t) : t.Inv := by
  have hr := step_running hstep
  cases step_effect hstep with
  | atEnd => exact h.haltAtEnd
  | invalid => exact (h.withIr _).raiseInvalid
  | raised _ _ _ he => exact (h.withIr _).raise he
  | completed hl _ _ hw => exact (h.withIr _).complete hr hl hw

/-! ### No step and no run is stuck -/

/-- The four bytes of an aligned offset below LEN stand in the buffer (R54). -/
theorem exists_fetchSlot {a : Nat} (h4 : a % 4 = 0) (ha : a < s.len) : ∃ sl, fetchSlot s.mem a = some sl := by
  refine fetchSlot_isSome fun k hk => ?_
  have hroom := h.slot_in_buffer h4 ha
  rw [h.memIsBuffer, decide_eq_true_eq]
  omega

theorem step_answers (hr : s.status = .running) : ∃ t, Machine.step s = .next t := by
  cases he : s.atEnd with
  | true => exact ⟨_, step_atEnd hr he⟩
  | false =>
    obtain ⟨sl, hf⟩ := h.exists_fetchSlot h.pcAligned (atEnd_eq_false.mp he)
    cases hd : decode sl with
    | error d => exact ⟨_, step_invalid hr he hf hd⟩
    | ok i =>
      rw [step_exec hr he hf hd]
      obtain ⟨e, -, hnext⟩ | ⟨w, -, hnext⟩ := exec_cases i (s.withIr sl)
      · exact ⟨_, hnext⟩
      · exact ⟨_, hnext⟩

end State.Inv

theorem run_inv {s : State} (h : s.Inv) (n : Nat) : ∃ u, run n s = .next u ∧ u.Inv := by
  induction n generalizing s with
  | zero => exact ⟨s, rfl, h⟩
  | succ k ih =>
    cases hr : s.status with
    | halted e => exact ⟨s, run_halted hr, h⟩
    | running =>
      obtain ⟨t, ht⟩ := h.step_answers hr
      rw [run_succ hr ht]
      exact ih (h.step ht)

/-! ### Reset (R340) -/

theorem resetState_opCount (buffer : List Byte) (initRegs : Vector Word 16) (mode : Mode) (s : State) (o : Op) :
    (resetState buffer initRegs mode s).opCount o = 0#64 := by
  simp [State.opCount, resetState]

theorem resetState_read (buffer : List Byte) (initRegs : Vector Word 16) (mode : Mode) (s : State) (a : Nat) :
    Memory.read (resetState buffer initRegs mode s).mem a = buffer[a]? := by
  have hread := Memory.read_ofBytes 0 buffer a
  rwa [Nat.zero_add] at hread

/-- The state that an accepted reset sets meets the invariant. -/
theorem resetState_inv {buffer : List Byte} (ha : acceptsLength buffer.length = true) (initRegs : Vector Word 16)
    (mode : Mode) (s : State) : (resetState buffer initRegs mode s).Inv where
  lenAligned := (acceptsLength_iff.mp ha).1
  lenBound := (acceptsLength_iff.mp ha).2
  pcAligned := rfl
  pcBound := Nat.zero_le _
  memCanonical := Memory.ofBytes_wf buffer
  memIsBuffer a := by
    rw [resetState_read, Bool.eq_iff_iff, isSome_getElem?, decide_eq_true_iff]
    rfl
  stackBound _ _ := Nat.zero_le _
  neverInvalidRegister := nofun
  overflowNeedsBound := nofun
  countsBalance := by
    rw [State.totalCount, funext (resetState_opCount buffer initRegs mode s)]
    rfl
  traceOff _ := rfl
  traceOn _ := rfl
  tracePcs := nofun

/-- The default reset is the host's with the empty buffer and every optional input at its default. -/
theorem reset_eq_resetState : State.reset = resetState [] defaultInitRegs defaultMode State.reset := rfl

/-! ### The obligations -/

/-- Settles O23: each of a step's four effects keeps the invariant. -/
theorem stepKeepsInvariant : Obligations.StepKeepsInvariant := fun _ _ h hstep => h.step hstep

/-- Settles O22: an accepted reset sets `resetState`. -/
theorem acceptedResetMeetsInvariant : Obligations.AcceptedResetMeetsInvariant := by
  intro buffer initRegs mode s t h
  obtain ⟨ha, rfl⟩ := hostReset_next h
  exact resetState_inv ha initRegs mode s

/-- Settles O24: the invariant keeps pc's slot inside the buffer, and executing an instruction always answers. -/
theorem runningStepAnswers : Obligations.RunningStepAnswers := fun _ h hr => h.step_answers hr

/-- Settles O25: along the run every state meets the invariant, so each step from a Running one answers. -/
theorem runAfterResetNeverFaults : Obligations.RunAfterResetNeverFaults :=
  fun buffer initRegs mode s t n h => run_inv (acceptedResetMeetsInvariant buffer initRegs mode s t h) n

/-- Settles O21: the default reset is an accepted one. -/
theorem resetStateMeetsInvariant : Obligations.ResetStateMeetsInvariant := by
  unfold Obligations.ResetStateMeetsInvariant
  rw [reset_eq_resetState]
  exact resetState_inv rfl defaultInitRegs defaultMode State.reset

end Sys2Proof.Machine

/-! PROOFS. What every step does to each part of the state (spec/10_state.md, spec/41_fetch_decode_execute.md,
spec/60_exceptions.md): the program, the registers, pc, the counters and the trace, and STATUS. -/

namespace Sys2Proof.Machine

/-! ### The program (R51, R54) -/

/-- No step writes the buffer, LEN, MODE or STACK_CAPACITY. -/
theorem step_keepsProgram {s t : State} (h : step s = .next t) :
    t.mem = s.mem ∧ t.len = s.len ∧ t.mode = s.mode ∧ t.stackCapacity = s.stackCapacity := by
  cases step_effect h with
  | atEnd | invalid | raised | completed => exact ⟨rfl, rfl, rfl, rfl⟩

/-- A slot at an aligned offset below LEN decodes, and pc is such an offset, so no step raises InvalidInstructionError. -/
theorem step_keepsDecodable {s t : State} (hinv : s.Inv) (hall : s.AllSlotsDecode) (h : step s = .next t) :
    t.AllSlotsDecode ∧ t.status ≠ .halted (some .invalidInstruction) := by
  constructor
  · obtain ⟨hmem, hlen, -⟩ := step_keepsProgram h
    rwa [State.AllSlotsDecode, hmem, hlen]
  · have hr := step_running h
    cases step_effect h with
    | atEnd => nofun
    | @invalid sl d hl hslot hd =>
      obtain ⟨sl', i, hf, hd'⟩ := hall s.pc.toNat hinv.pcAligned hl
      cases hf.symm.trans (fetchSlot_eq_some.mpr hslot)
      cases hd.symm.trans hd'
    | raised _ _ _ he => cases he <;> nofun
    | completed => exact complete_status_ne_error (s := s.withIr _) hr _ _ _

/-! ### The fetch of a slot changes IR alone -/

theorem CountsAs.of_withIr {i : Instr} {s t : State} {sl : Slot} (h : CountsAs i (s.withIr sl) t) : CountsAs i s t :=
  ⟨h.instret, h.own, h.others, h.traceOn, h.traceOff⟩

theorem Transfers.of_withIr {i : Instr} {s : State} {sl : Slot} {v : Word} (h : Transfers (s.withIr sl) i v) :
    Transfers s i v := by
  cases h with
  | jmpt he taken => exact .jmpt he taken
  | jmpf he taken => exact .jmpf he taken
  | call he => exact .call he
  | ret => exact .ret

/-! ### pc (R165, R240) and the registers (R22) -/

/-- A step that does not halt at pc commits writes that the instruction at pc names. -/
theorem step_named {s t : State} (h : step s = .next t) :
    (t.pc = s.pc ∧ t.status ≠ .running ∧ KeepsRegs s t) ∨
    ∃ sl i w, s.SlotAtPc sl ∧ decode sl = .ok i ∧ NamedWrites i (s.withIr sl) w ∧ t = complete i w (s.withIr sl) := by
  obtain ⟨-, ⟨-, rfl⟩ | ⟨sl, -, hf, ⟨d, -, rfl⟩ | ⟨i, hd, hexec⟩⟩⟩ := step_next_cases h
  · exact .inl ⟨rfl, nofun, fun _ => rfl⟩
  · exact .inl ⟨rfl, nofun, fun _ => rfl⟩
  · obtain ⟨e, he⟩ | ⟨w, hw, he⟩ := exec_named i (s.withIr sl) <;> cases hexec.symm.trans he
    · exact .inl ⟨rfl, nofun, fun _ => rfl⟩
    · exact .inr ⟨sl, i, w, fetchSlot_eq_some.mp hf, hd, hw, rfl⟩

/-! ### STATUS (R30) -/

theorem Status.word_toNat (st : Status) :
    st.word.toNat = (if st = .running then 1 else 0) + 2 * st.errCode.toNat := by
  rcases st with _ | _ | e
  case halted.some => rw [Status.word_halted_some_toNat]; simp [Status.errCode]
  all_goals decide

theorem Status.errCode_toNat_le (st : Status) : st.errCode.toNat ≤ 5 := by
  rcases st with _ | _ | e
  case halted.some => cases e <;> decide
  all_goals decide

/-! ### The obligations -/

/-- Settles O56: a step keeps the program, and with it that every slot decodes; pc is at such a slot. -/
theorem stepKeepsDecodablePrograms : Obligations.StepKeepsDecodablePrograms :=
  fun _ _ hinv hall h => ⟨hinv.step h, step_keepsDecodable hinv hall h⟩

/-- Settles O13: of a step's effects only the commit counts and emits, and it is no error. -/
theorem completedStepsCountAndTrace : Obligations.CompletedStepsCountAndTrace := by
  intro s t h
  have hr := step_running h
  cases step_effect h with
  | atEnd hl => exact ⟨fun _ => ⟨rfl, fun _ => rfl, rfl⟩, fun hlt => absurd hl (Nat.not_le.mpr hlt)⟩
  | invalid | raised => exact ⟨fun _ => ⟨rfl, fun _ => rfl, rfl⟩, fun _ hne => absurd rfl (hne _)⟩
  | @completed sl i w hl hslot hd hw =>
    refine ⟨fun hor => ?_, fun _ _ => ⟨sl, i, hslot, hd, (complete_countsAs i w (s.withIr sl)).of_withIr⟩⟩
    obtain hge | ⟨e, he⟩ := hor
    · exact absurd hl (Nat.not_lt.mpr hge)
    · exact absurd he (complete_status_ne_error (s := s.withIr sl) hr i w e)

/-- Settles O14: the next pc of a commit is one that its instruction names; every other effect halts at pc. -/
theorem pcAdvancesOrTransfers : Obligations.PcAdvancesOrTransfers := by
  intro s t h
  obtain ⟨hpc, hne, -⟩ | ⟨sl, i, w, hslot, hd, hw, rfl⟩ := step_named h
  · exact .inl ⟨hpc, hne⟩
  · obtain hnext | ⟨htransfers, hlt, h4⟩ := hw.nextPc
    · exact .inr (.inl hnext)
    · exact .inr (.inr ⟨sl, i, hslot, hd, htransfers.of_withIr, hlt, h4⟩)

/-- Settles O15: of the completed instructions only `stop` halts. -/
theorem onlyStopAndTheEndHaltWithoutError : Obligations.OnlyStopAndTheEndHaltWithoutError := by
  intro s t h ht
  have hr := step_running h
  cases step_effect h with
  | atEnd hl => exact .inl hl
  | invalid | raised => cases ht
  | @completed sl i w hl hslot hd hw =>
    have hhalt : w.halt = true := of_not_not fun hhalt => by
      rw [complete_status, withIr_status, hr, Bool.eq_false_of_not_eq_true hhalt] at ht
      cases ht
    exact .inr ⟨sl, hslot, hw.halt hhalt ▸ hd⟩

/-- Settles O16: the register that a commit writes is one that its instruction names; every other effect writes none. -/
theorem atMostOneRegisterPerStep : Obligations.AtMostOneRegisterPerStep := by
  intro s t h
  obtain ⟨-, -, hkeeps⟩ | ⟨sl, i, w, hslot, hd, hw, rfl⟩ := step_named h
  · exact .inl hkeeps
  · cases hreg : w.reg with
    | none => exact .inl (complete_keepsRegs i (s.withIr sl) hreg)
    | some p =>
      obtain ⟨rd, v⟩ := p
      exact .inr ⟨sl, i, rd, hslot, hd, hw.reg rd v hreg, (complete_writesReg i (s.withIr sl) hreg).2⟩

/-- Settles O17: none of a step's effects writes the program. -/
theorem stepKeepsTheProgram : Obligations.StepKeepsTheProgram := by
  intro s t h
  obtain ⟨hmem, hkept⟩ := step_keepsProgram h
  exact ⟨fun a => by rw [hmem], hkept⟩

/-- Settles O20: the word by the cases of STATUS; a step starts Running, with ERR 0, so it keeps ERR if it ends Running. -/
theorem statusWordHasItsFields : Obligations.StatusWordHasItsFields := by
  refine ⟨fun s => ⟨s.status.word_toNat, fun h => by rw [h]; rfl, s.status.errCode_toNat_le, ?_⟩, fun s t h hne ht => ?_⟩
  · refine ⟨?_, ?_, ?_, ?_, ?_, ?_⟩ <;> intro h <;> rw [h] <;> rfl
  · exact hne (by rw [ht, step_running h])

/-- Settles O6: the step's branch for a slot that decodes. -/
theorem stepRunsTheDecodedInstruction : Obligations.StepRunsTheDecodedInstruction :=
  fun s sl _ hr hl hslot hd =>
    withIr_eq_fetched s sl ▸ step_exec hr (atEnd_eq_false.mpr hl) (fetchSlot_eq_some.mpr hslot) hd

end Sys2Proof.Machine

/-! PROOFS. Two sources and what they take off the stack (spec/41_fetch_decode_execute.md R171), the wrapped results
(spec/43_arithmetic.md R212), and the host's reset and readouts (spec/60_exceptions.md R321, spec/70_reset_and_hazards.md). -/

namespace Sys2Proof.Machine

/-! ### What sources take off the stack (R171) -/

/-- A source that evaluates takes one element if it is Pop and none otherwise. -/
theorem evalSource_stack {a : Operand} {s : State} {v : Word} {st : List Word} (h : evalSource a s = some (v, st)) :
    st = s.stack.drop (popCount [a]) := by
  cases a with
  | reg i => cases h; simp
  | imm w => cases h; simp
  | pop =>
    cases hs : s.stack with
    | nil => simp [evalSource, hs] at h
    | cons top rest => rw [evalSource_pop_of_cons hs] at h; cases h; simp

theorem popCount_pair (a b : Operand) : popCount [a, b] = popCount [a] + popCount [b] := by
  simp [Nat.add_comm]

/-- Two sources are A, and B on the stack that A left. -/
theorem evalSources_eq_some_iff {a b : Operand} {s : State} {va vb : Word} {st : List Word} :
    evalSources a b s = some (va, vb, st) ↔
      ∃ mid, evalSource a s = some (va, mid) ∧ evalSource b { s with stack := mid } = some (vb, st) :=
  evalSources_eq_some

theorem evalSources_stack {a b : Operand} {s : State} {va vb : Word} {st : List Word}
    (h : evalSources a b s = some (va, vb, st)) : st = s.stack.drop (popCount [a, b]) := by
  obtain ⟨mid, ha, hb⟩ := evalSources_eq_some_iff.mp h
  rw [evalSource_stack hb, evalSource_stack ha, List.drop_drop, popCount_pair]

/-! ### The wrapped results (R212) -/

theorem w16_u16 (v : Word) : w16 (u16 v : Int) = v := by
  rw [w16, BitVec.ofInt_natCast, BitVec.ofNat_toNat, BitVec.setWidth_eq]

theorem w16_sub (m n : Int) : w16 (m - n) = w16 m - w16 n := by
  rw [Int.sub_eq_add_neg, w16_add, BitVec.sub_eq_add_neg]
  exact congrArg (w16 m + ·) BitVec.ofInt_neg

/-! ### What the host reads (R321): the STATUS and MODE words (R30, R31) and a register -/

theorem Status.word_running : Status.running.word = 1 := by decide

theorem Mode.word_toNat (m : Mode) :
    m.word.toNat = (if m.debug then 1 else 0) + (if m.stats then 2 else 0) := by
  obtain ⟨debug, stats⟩ := m
  cases debug <;> cases stats <;> rfl

theorem readRegister_index (j : RegIdx) (s : State) : readRegister (j.val : Int) s = .ok (s.readReg j) := by
  have hj := j.isLt
  rw [readRegister, dif_pos ⟨by omega, by omega⟩]
  rfl

theorem readRegister_outside {k : Int} (h : k < 0 ∨ 16 ≤ k) (s : State) :
    readRegister k s = .error .invalidRegister :=
  dif_neg (by omega)

/-! ### The obligations -/

/-- Settles O27: A, then B on the stack that A left, each taking an element if it is Pop. -/
theorem sourcesAreEvaluatedAFirst : Obligations.SourcesAreEvaluatedAFirst := by
  refine fun a b s => ⟨evalSources_eq_none_iff, fun va vb st h => ?_, fun p q rest ha hb hs => ?_⟩
  · exact ⟨evalSources_stack h, evalSources_eq_some_iff.mp h⟩
  · subst ha hb
    exact evalSources_eq_some_iff.mpr ⟨q :: rest, evalSource_pop_of_cons hs, evalSource_pop_of_cons rfl⟩

/-- Settles O44: wrapping is additive, and it gives the pattern back from either reading of it. -/
theorem wrappedResultsIgnoreSignedness : Obligations.WrappedResultsIgnoreSignedness := by
  intro a b
  constructor
  · rw [w16_add, w16_add, w16_s16, w16_s16, w16_u16, w16_u16]
  · rw [w16_sub, w16_sub, w16_s16, w16_s16, w16_u16, w16_u16]

/-- Settles O46: an accepted reset sets `resetState`, and one with another length is refused. -/
theorem resetSetsTheState : Obligations.ResetSetsTheState := by
  refine fun buffer initRegs mode s => ⟨fun h4 hle => ?_, fun hbad => ?_⟩
  · exact ⟨_, hostReset_accepted (acceptsLength_iff.mpr ⟨h4, hle⟩) initRegs mode s,
      resetState_read buffer initRegs mode s, rfl, fun _ => rfl, rfl, rfl, rfl, rfl, rfl, Status.word_running, rfl, rfl,
      resetState_opCount buffer initRegs mode s⟩
  · refine hostReset_refused (Bool.eq_false_iff.mpr fun ha => ?_) initRegs mode s
    obtain ⟨h4, hle⟩ := acceptsLength_iff.mp ha
    omega

/-- Settles O47: the readouts by whether the index is a register's and by the two bits of MODE. -/
theorem hostReadoutsAreGated : Obligations.HostReadoutsAreGated := by
  refine fun s => ⟨fun j => readRegister_index j s, fun k h => readRegister_outside h s, ?_, ?_, s.mode.word_toNat⟩
  · rw [readStats]
    cases s.mode.stats <;> rfl
  · rw [readTrace]
    cases s.mode.debug <;> rfl

/-- Settles O5: the decoder computes the nine answers. -/
theorem decoderReadsWordsOfTheSpec : Obligations.DecoderReadsWordsOfTheSpec := by
  unfold Obligations.DecoderReadsWordsOfTheSpec
  decide

end Sys2Proof.Machine

/-! PROOFS. Pass 2 of the assembler (spec/40_assembler.md R120 to R131): the buffer slot by slot, references to labels, the
order of a line's errors; and the runs of programs that the assembler made. -/

namespace Sys2Proof.Machine

/-! ### The buffer slot by slot (R120, R130) -/

/-- Every instruction that pass 2 gives fits its slot (R129). -/
theorem pass2_wf {sym : List (Token × Nat)} {n : Nat} {lines : List LineKind} {is : List Instr}
    (h : pass2 sym n lines = .ok is) : ∀ i ∈ is, i.wf = true := by
  induction lines generalizing n is with
  | nil => cases h; nofun
  | cons l rest ih =>
    obtain ⟨-, hrest⟩ | ⟨m, ops, i, tail, -, hline, hrest, rfl⟩ := pass2_cons h
    · exact ih hrest
    · exact List.forall_mem_cons.mpr ⟨assembleLine_wf hline, ih hrest⟩

/-- Byte `j` of slot `k` of the buffer is byte `j` of instruction `k`, encoded. -/
theorem encodeAll_getElem? {is : List Instr} {k : Nat} {i : Instr} (h : is[k]? = some i) {j : Nat} (hj : j < 4) :
    (encodeAll is)[4 * k + j]? = (encode i).bytes[j]? := by
  induction is generalizing k with
  | nil => cases h
  | cons first rest ih =>
    have hlen : (encode first).bytes.length = 4 := rfl
    cases k with
    | zero =>
      cases h
      rw [encodeAll, Nat.mul_zero, Nat.zero_add, List.getElem?_append_left (hlen ▸ hj)]
    | succ k =>
      rw [encodeAll, List.getElem?_append_right (by omega), hlen, ← ih h]
      congr 1
      omega

/-- The bytes of `sl` stand in the buffer as slot `k` (R70). -/
def SlotAt (buffer : List Byte) (k : Nat) (sl : Slot) : Prop :=
  buffer[4 * k]? = some sl.b0 ∧ buffer[4 * k + 1]? = some sl.b1 ∧ buffer[4 * k + 2]? = some sl.b2 ∧
  buffer[4 * k + 3]? = some sl.b3

theorem slotAt_encodeAll {is : List Instr} {k : Nat} {i : Instr} (h : is[k]? = some i) :
    SlotAt (encodeAll is) k (encode i) :=
  ⟨encodeAll_getElem? h (j := 0) (by decide), encodeAll_getElem? h (j := 1) (by decide),
    encodeAll_getElem? h (j := 2) (by decide), encodeAll_getElem? h (j := 3) (by decide)⟩

/-- What an accepted source is as lines. -/
theorem assembleLines_ok {lines : List LineKind} {ly : Layout} {is : List Instr}
    (hly : pass1 1 Layout.start lines = .ok ly) (hoff : ly.off ≤ 65532) (his : pass2 ly.sym 1 lines = .ok is) :
    assembleLines lines = .ok is := by
  simp [assembleLines, hly, Config.maxProgramBytes, Nat.not_lt.mpr hoff, his]

/-! ### Labels (R117, R123, R127) -/

/-- A label that one line of pass 1 binds was bound before it, or the line declares it. -/
theorem pass1Line_bound {ly ly' : Layout} {l : LineKind} (h : pass1Line ly l = .ok ly') {name : Token}
    (hs : lookupLabel ly'.sym name ≠ none) :
    lookupLabel ly.sym name ≠ none ∨ ∃ tok, l = .label tok ∧ labelName tok = some name := by
  obtain ⟨-, h1⟩ | ⟨_, _, -, h1⟩ | ⟨tok, declared, rfl, hn, -, h1⟩ | ⟨_, _, -, h1⟩ := pass1Line_cases ly l <;>
    cases h1.symm.trans h
  · exact .inl hs
  · exact .inl hs
  · by_cases heq : declared = name
    · exact .inr ⟨tok, rfl, heq ▸ hn⟩
    · simp only [lookupLabel_append, lookupLabel, if_neg heq, Option.or_none] at hs
      exact .inl hs

/-- Pass 1 binds no label that the lines do not declare. -/
theorem pass1_unbound {n : Nat} {ly ly' : Layout} {lines : List LineKind} (h : pass1 n ly lines = .ok ly')
    {name : Token} (hnone : lookupLabel ly.sym name = none)
    (hdecl : ∀ before, ¬ DeclaresAfter lines before name) : lookupLabel ly'.sym name = none := by
  induction lines generalizing n ly with
  | nil => cases h; exact hnone
  | cons l rest ih =>
    obtain ⟨mid, hline, hrest⟩ := pass1_cons h
    refine ih hrest (of_not_not fun hbound => ?_) fun before hd => ?_
    · obtain hold | ⟨tok, rfl, hn⟩ := pass1Line_bound hline hbound
      · exact hold hnone
      · exact hdecl [] ⟨tok, rest, rfl, hn⟩
    · obtain ⟨tok, after, rfl, hn⟩ := hd
      exact hdecl (l :: before) ⟨tok, after, rfl, hn⟩

theorem isIdentifier_head_ne_hash {t : Token} (h : isIdentifier t = true) : t.head? ≠ some '#' := by
  intro hhash
  cases t with
  | nil => cases hhash
  | cons c rest =>
    cases hhash
    exact absurd h (by simp [isIdentifier, isLetter])

/-- A token that is an identifier, no register form and not `pop` refers to a label (R127). -/
theorem classify_identifier (sym : List (Token × Nat)) {name : Token} (hid : isIdentifier name = true)
    (hreg : isRegisterForm name = false) (hpop : name ≠ "pop".toList) :
    classify sym name =
      (lookupLabel sym name).elim (.error (.undefinedLabelError name)) fun off => .ok (.imm (w16 off)) := by
  rw [classify, if_neg (isIdentifier_head_ne_hash hid), if_neg (Bool.eq_false_iff.mp hreg), if_neg hpop, if_pos hid]
  cases lookupLabel sym name <;> rfl

/-- All operands are classified where the whole list is. -/
theorem classify_of_classifyAll {sym : List (Token × Nat)} {ts : List Token} {os : List Operand}
    (h : classifyAll sym ts = .ok os) : ∀ t ∈ ts, ∃ o, classify sym t = .ok o := by
  induction ts generalizing os with
  | nil => nofun
  | cons t rest ih =>
    rw [classifyAll] at h
    split at h
    · cases h
    · rename_i o ho
      split at h
      · cases h
      · rename_i os' hrest
        exact List.forall_mem_cons.mpr ⟨⟨o, ho⟩, ih hrest⟩

/-! ### One INSTRUCTION line (R121 to R129, R131) -/

theorem opOfMnemonic_mnemonicOf (o : Op) : opOfMnemonic (mnemonicOf o).toList = some o := by cases o <;> decide

theorem opOfMnemonic_eq_none {m : Token} (h : ∀ o, m ≠ (mnemonicOf o).toList) : opOfMnemonic m = none :=
  List.find?_eq_none.mpr fun o _ hm => h o (eq_of_beq hm).symm

theorem opArity_eq (o : Op) : opArity o = (if o.hasDst then 1 else 0) + o.nSrc := by
  rw [opArity]
  cases o.hasDst <;> rfl

theorem assembleLine_noMnemonic (sym : List (Token × Nat)) {m : Token} (ops : List Token) (h : opOfMnemonic m = none) :
    assembleLine sym m ops = .error (.syntaxError .unrecognizedMnemonic) := by
  simp [assembleLine, h]

section

variable (sym : List (Token × Nat)) {m : Token} {ops : List Token} {o : Op} (hm : opOfMnemonic m = some o)
include hm

theorem assembleLine_count (hlen : ops.length ≠ opArity o) :
    assembleLine sym m ops = .error (.syntaxError .operandCount) := by
  simp [assembleLine, hm, hlen]

variable {sym} (hlen : ops.length = opArity o)
include hlen

theorem assembleLine_classifyError {e : AsmError} (hc : classifyAll sym ops = .error e) :
    assembleLine sym m ops = .error e := by
  simp [assembleLine, hm, hlen, hc]

theorem assembleLine_dstError {os : List Operand} {e : AsmError} (hc : classifyAll sym ops = .ok os)
    (hd : splitDst o.hasDst os = .error e) : assembleLine sym m ops = .error e := by
  simp [assembleLine, hm, hlen, hc, hd]

theorem assembleLine_fit {os srcs : List Operand} {dst : Option RegIdx} (hc : classifyAll sym ops = .ok os)
    (hd : splitDst o.hasDst os = .ok (dst, srcs)) : assembleLine sym m ops = fitSlot o dst srcs := by
  simp [assembleLine, hm, hlen, hc, hd]

end

theorem splitDst_noRegister {os : List Operand} (h : ∀ r rest, os ≠ .reg r :: rest) :
    splitDst true os = .error (.syntaxError .destinationNotRegister) := by
  match os with
  | [] | .imm _ :: _ | .pop :: _ => rfl
  | .reg r :: rest => exact absurd rfl (h r rest)

/-- The operands of an instruction in source order (R71): its destination and its sources. -/
def instrOperands (i : Instr) : List Operand :=
  i.dst.toList.map Operand.reg ++ i.sources.1.toList ++ i.sources.2.toList

theorem splitDst_operands (i : Instr) :
    splitDst i.op.hasDst (instrOperands i) = .ok (i.dst, i.sources.1.toList ++ i.sources.2.toList) := by
  cases i <;> rfl

/-- An instruction has a source B only where it has a source A. -/
theorem sources_getElem? (i : Instr) :
    (i.sources.1.toList ++ i.sources.2.toList)[0]? = i.sources.1 ∧
    (i.sources.1.toList ++ i.sources.2.toList)[1]? = i.sources.2 := by
  cases i <;> exact ⟨rfl, rfl⟩

theorem fitSlot_sources (i : Instr) : fitSlot i.op i.dst (i.sources.1.toList ++ i.sources.2.toList) =
    if i.wf then .ok i else .error (.syntaxError .notEncodable) := by
  obtain ⟨hA, hB⟩ := sources_getElem? i
  have hbuild : Instr.build i.op i.dst i.sources.1 i.sources.2 = some i := Laws.BuildsItself.all i
  simp only [fitSlot, hA, hB, hbuild]

/-- The operands of a line that assembles were classified. -/
theorem classifyAll_of_assembleLine {sym : List (Token × Nat)} {m : Token} {ops : List Token} {i : Instr}
    (h : assembleLine sym m ops = .ok i) : ∃ os, classifyAll sym ops = .ok os := by
  cases hm : opOfMnemonic m with
  | none => cases (assembleLine_noMnemonic sym ops hm).symm.trans h
  | some o =>
    by_cases hlen : ops.length = opArity o
    · cases hc : classifyAll sym ops with
      | error e => cases (assembleLine_classifyError hm hlen hc).symm.trans h
      | ok os => exact ⟨os, rfl⟩
    · cases (assembleLine_count sym hm hlen).symm.trans h

/-- Pass 2 assembles every INSTRUCTION line of a source that it accepts. -/
theorem assembleLine_of_pass2 {sym : List (Token × Nat)} {n : Nat} {lines : List LineKind} {is : List Instr}
    (h : pass2 sym n lines = .ok is) {m : Token} {ops : List Token} (hmem : LineKind.instruction m ops ∈ lines) :
    ∃ i, assembleLine sym m ops = .ok i := by
  induction lines generalizing n is with
  | nil => cases hmem
  | cons l rest ih =>
    obtain ⟨hl, hrest⟩ | ⟨m', ops', i, tail, rfl, hline, hrest, -⟩ := pass2_cons h <;>
      obtain heq | hmem := List.mem_cons.mp hmem
    · exact absurd heq.symm (hl m ops)
    · exact ih hrest hmem
    · cases heq; exact ⟨i, hline⟩
    · exact ih hrest hmem

/-! ### The obligations -/

/-- Settles O49: pass 2 gives instructions that fit, and the slot of one that fits decodes to it. -/
theorem assembledSlotsDecodeToTheSource : Obligations.AssembledSlotsDecodeToTheSource := by
  intro source buffer h
  obtain ⟨text, ly, is, ht, hly, hoff, his, rfl⟩ := assemble_ok h
  refine ⟨text, is, ht, assembleLines_ok hly hoff his, encodeAll_length is, fun k i hk => ?_⟩
  exact ⟨encode i, decode_encode (pass2_wf his i (List.mem_of_getElem? hk)), slotAt_encodeAll hk⟩

/-- Settles O52: pass 1 binds declared labels only, and pass 2 classifies every operand of a source that it accepts. -/
theorem undeclaredLabelNeverAssembles : Obligations.UndeclaredLabelNeverAssembles := by
  refine ⟨fun sym name hid hreg hpop => ?_,
    fun source text m name ops ht hline hname hid hreg hpop hdecl buffer h => ?_⟩
  · rw [classify_identifier sym hid hreg hpop]
    refine ⟨fun off h => ?_, fun h => ?_⟩
    · rw [h, Option.elim_some, w16, BitVec.ofInt_natCast]
    · rw [h, Option.elim_none]
  · obtain ⟨text', ly, is, ht', hly, -, his, -⟩ := assemble_ok h
    cases ht.symm.trans ht'
    obtain ⟨i, hi⟩ := assembleLine_of_pass2 his hline
    obtain ⟨os, hos⟩ := classifyAll_of_assembleLine hi
    obtain ⟨o, ho⟩ := classify_of_classifyAll hos name hname
    rw [classify_identifier ly.sym hid hreg hpop, pass1_unbound hly rfl hdecl] at ho
    cases ho

/-- Settles O53: the line's branches in order; an instruction's own operands split into its parts, which build it. -/
theorem lineErrorsComeInOrder : Obligations.LineErrorsComeInOrder := by
  refine fun sym m ops => ⟨fun hno => assembleLine_noMnemonic sym ops (opOfMnemonic_eq_none hno), fun o hm => ?_⟩
  have hop : opOfMnemonic m = some o := hm ▸ opOfMnemonic_mnemonicOf o
  rw [← opArity_eq]
  refine ⟨assembleLine_count sym hop, fun hlen => ⟨fun e hc => ?_, fun os hc hdst hno => ?_, fun i hi hc => ?_⟩⟩
  · exact assembleLine_classifyError hop hlen hc
  · exact assembleLine_dstError hop hlen hc (hdst ▸ splitDst_noRegister hno)
  · subst hi
    exact (assembleLine_fit hop hlen hc (splitDst_operands i)).trans (fitSlot_sources i)

/-! ### Programs that the assembler made (R24, R340) -/

/-- A reset with an assembled buffer sets a state in which every slot decodes. -/
theorem resetState_allSlotsDecode {source buffer : List Byte} (h : assemble source = .ok buffer)
    (initRegs : Vector Word 16) (mode : Mode) (s : State) : (resetState buffer initRegs mode s).AllSlotsDecode := by
  obtain ⟨text, is, -, -, hlen, hslots⟩ := assembledSlotsDecodeToTheSource source buffer h
  intro a h4 ha
  have ha : a < buffer.length := ha
  obtain ⟨k, rfl⟩ := Nat.dvd_of_mod_eq_zero h4
  obtain ⟨sl, hd, hbytes⟩ := hslots k is[k] (List.getElem?_eq_getElem (by omega))
  exact ⟨sl, is[k], fetchSlot_eq_some.mpr (by simpa only [resetState_read] using hbytes), hd⟩

/-- What holds of every state that a program the assembler made reaches. -/
structure State.RunsDecodable (s : State) : Prop where
  inv : s.Inv
  allSlotsDecode : s.AllSlotsDecode
  neverInvalid : s.status ≠ .halted (some .invalidInstruction)

theorem State.RunsDecodable.step {s t : State} (h : s.RunsDecodable) (hstep : step s = .next t) : t.RunsDecodable := by
  obtain ⟨hinv, hall, hne⟩ := stepKeepsDecodablePrograms s t h.inv h.allSlotsDecode hstep
  exact ⟨hinv, hall, hne⟩

theorem resetState_runsDecodable {source buffer : List Byte} (h : assemble source = .ok buffer)
    (initRegs : Vector Word 16) (mode : Mode) (s : State) : (resetState buffer initRegs mode s).RunsDecodable :=
  ⟨resetState_inv (assemble_acceptsLength h) initRegs mode s, resetState_allSlotsDecode h initRegs mode s, nofun⟩

/-- Settles O55: the reset's state runs decodable slots, and every step keeps that (O56). -/
theorem assembledProgramsAlwaysDecode : Obligations.AssembledProgramsAlwaysDecode := by
  intro source buffer initRegs mode s0 s t h hreset hsteps
  obtain ⟨-, rfl⟩ := hostReset_next hreset
  exact (hsteps.keeps (fun _ _ => .step) (resetState_runsDecodable h initRegs mode s0)).neverInvalid

end Sys2Proof.Machine
